-- ==== Sys2Proof/Word.lean ====
section
/-! DEFINITION. The word types of the block: bytes, interface words, host addresses (R11, R13, R60). -/

namespace Sys2Proof

/-- Every datum of the block is a byte (R11). -/
abbrev Byte := BitVec 8

/-- The widest interface word, a host command or response (R60). Narrower words stand in its low bits. -/
abbrev Word := BitVec 32

/-- A host address field: 16 bits, of which `ADDR_WIDTH` name a byte (R8, R13, R74). -/
abbrev Addr := BitVec 16

end Sys2Proof
end

