-- ==== Sys2Proof/Config.lean ====
section
/-! DEFINITION. The build-time parameters of R8 and what the spec leaves OPEN among them. -/

namespace Sys2Proof

/-- `SELFHEAL_SCOPE` (R8, conflict C7). -/
inductive HealScope where
  | wide
  | narrow
  deriving DecidableEq, Repr

/-- The build-time parameters of R8 other than `SLAVE_ADDR`, whose one home is `E.addr` (R21), and the two that
are fixed (`Config.indexWidth`, `Config.lenMax`). No step changes them (R9). -/
structure Params where
  /-- `CHECKSUM_SEED` -/
  checksumSeed : Byte
  /-- `READ_WITHOUT_INDEX` -/
  readWithoutIndex : Bool
  /-- `SELFHEAL_SCOPE` -/
  healScope : HealScope
  /-- `RESET_CLEARS_HAVE_INDEX` -/
  resetClearsHaveIndex : Bool
  /-- `ADDR_WIDTH`, 1 to 16 -/
  addrWidth : Nat
  /-- `COMMIT_MASK`, read by the commit consumer only -/
  commitMask : Byte
  /-- `COMMIT_MAGIC`, read by the commit consumer only -/
  commitMagic : Byte
  deriving DecidableEq, Repr

/-- `SLAVE_ADDR`: any value 0 to 127, fixed at construction (R8). No body: nothing can be proved of its value. -/
opaque Config.slaveAddr : BitVec 7

/-- `READ_WITHOUT_INDEX`: OPEN (R8, D7). No body: nothing can be proved of its value. -/
opaque Config.readWithoutIndex : Bool

/-- `INDEX_WIDTH` (R8): fixed, the width of `E.index`. -/
def Config.indexWidth : Nat := 8

/-- `LEN_MAX` (R8): fixed, the longest region. -/
def Config.lenMax : Nat := 255

/-- The parameters of the machine that `State.reset` builds: the values of R8, the OPEN one left open. -/
def Config.build : Params where
  checksumSeed := 0xAA#8
  readWithoutIndex := Config.readWithoutIndex
  healScope := .wide
  resetClearsHaveIndex := false
  addrWidth := 16
  commitMask := 0x07#8
  commitMagic := 0x05#8

end Sys2Proof
end

