-- ==== Sys2Proof/Syntax.lean ====
section
/-! DEFINITION. The instructions of spec/opcode_table.json, the formats of R60, and the inputs a script holds. -/

namespace Sys2Proof

/-- The input formats of R60. The same bits mean different things in different formats, so a word is always read
in a format. `wireTx` is the format R60 gives a byte the slave sends (the table files its row under `wire_data`). -/
inductive Format where
  | busSym
  | wireAddr
  | wireIndex
  | wireData
  | wireTx
  | wireAck
  | evWord
  | tcmdWord
  | hcmdWord
  deriving DecidableEq, Repr

/-- One constructor per row of spec/opcode_table.json, in the table's order. Each operand has exactly the width of
its field. -/
inductive Instr where
  /-- CLK0 (R87): one clock, the master pulling the line low. -/
  | clk0
  /-- CLK1 (R88): one clock, the master releasing the line. -/
  | clk1
  /-- START (R83). -/
  | start
  /-- STOP (R84). -/
  | stop
  /-- ADDR (R62, R102): address `a` and direction bit `d`, 1 = READ. -/
  | addr (a : BitVec 7) (d : Bool)
  /-- INDEX (R65, R105): index byte `i`. -/
  | index (i : Byte)
  /-- DATA_W (R66, R107): data byte `v` from the master. -/
  | dataW (v : Byte)
  /-- DATA_R (R67, R109): byte `v` from the slave. -/
  | dataR (v : Byte)
  /-- ACK (R64): acknowledge bit 0. -/
  | ack
  /-- NACK (R64): acknowledge bit 1. -/
  | nack
  /-- EV_START (R71, R101). -/
  | evStart
  /-- EV_DONE_IN1 (R71, R111): sampled bit `b`. -/
  | evDoneIn1 (b : Bool)
  /-- EV_DONE_IN8 (R71, R99): sampled byte `d`. -/
  | evDoneIn8 (d : Byte)
  /-- EV_DONE_OUT1 (R71, R99): sampled line value `b`. -/
  | evDoneOut1 (b : Bool)
  /-- EV_DONE_OUT8 (R71, R110): sampled line values `d`. -/
  | evDoneOut8 (d : Byte)
  /-- T_DISARM (R72, R89). -/
  | tDisarm
  /-- T_IN1 (R72, R90). -/
  | tIn1
  /-- T_IN8 (R72, R91). -/
  | tIn8
  /-- T_OUT1 (R72, R92): acknowledge bit `b`. -/
  | tOut1 (b : Bool)
  /-- T_OUT8 (R72, R93): byte `v`. -/
  | tOut8 (v : Byte)
  /-- NOP (R74, R119). -/
  | nop
  /-- REGW (R74, R120). -/
  | regw (null : Bool) (len : Byte) (base : Addr)
  /-- REGR (R74, R121). -/
  | regr (null : Bool) (len : Byte) (base : Addr)
  /-- ARM (R74, R122). -/
  | arm
  /-- QBUSY (R74, R123). -/
  | qbusy
  /-- STATUS (R74, R124). -/
  | status
  deriving DecidableEq, Repr

/-- One input of a script: what the outside of the block does next (R95, R118). -/
inductive Item where
  /-- A word in a format: a bus symbol, a wire frame, an event word, a transport command or a host command. -/
  | word (f : Format) (w : Word)
  /-- `h.st addr, v` (R78, R118). -/
  | store (a : Addr) (v : Byte)
  /-- `h.ld addr` (R78, R118). -/
  | load (a : Addr)
  /-- `c.tick`, one run of the commit consumer (R128). -/
  | tick
  /-- The source's registration call, of the writable or the readable region; no buffer is a null buffer (R74, R120). -/
  | register (writable : Bool) (buffer : Option Addr) (length : Nat)
  /-- Take the engine step of a pending flag now (R95 leaves its order against host steps open). -/
  | serve
  /-- Samples (scl, sda) of the two wires, the first the sample before the rest (R85). -/
  | samples (before : Bool × Bool) (rest : List (Bool × Bool))
  /-- Power-on reset, with the contents it leaves unspecified (R147). -/
  | powerOn (cells : List (Addr × Byte)) (shadow : List Byte)
  deriving DecidableEq, Repr

end Sys2Proof
end

