-- ==== Sys2Proof/WellFormed.lean ====
section
/-! DEFINITION. Well-formedness: of the build's parameters (R8), of an instruction under them (R74), of a word in
its format (R60). -/

namespace Sys2Proof

/-- `ADDR_WIDTH` is 1 to 16 (R8). -/
def Params.wf (p : Params) : Bool := 1 ≤ p.addrWidth && p.addrWidth ≤ 16

/-- A region `[base, base + len)` lies in the address space (R40, R120). -/
def Params.regionFits (p : Params) (base : Addr) (len : Byte) : Bool :=
  base.toNat < 2 ^ p.addrWidth && base.toNat + len.toNat ≤ 2 ^ p.addrWidth

/-- An instruction is well formed under the parameters. Operand types carry the field widths, so the one check left
is R74's and R120's on a registration: the region it names lies in the address space, unless it is null. -/
def Instr.wf (p : Params) : Instr → Bool
  | .regw null len base => null || p.regionFits base len
  | .regr null len base => null || p.regionFits base len
  | .clk0 | .clk1 | .start | .stop => true
  | .addr _ _ | .index _ | .dataW _ | .dataR _ | .ack | .nack => true
  | .evStart | .evDoneIn1 _ | .evDoneIn8 _ | .evDoneOut1 _ | .evDoneOut8 _ => true
  | .tDisarm | .tIn1 | .tIn8 | .tOut1 _ | .tOut8 _ => true
  | .nop | .arm | .qbusy | .status => true

/-- The width of a format in bits (R60). -/
def Format.width : Format → Nat
  | .busSym => 2
  | .wireAddr | .wireIndex | .wireData | .wireTx => 8
  | .wireAck => 1
  | .evWord | .tcmdWord => 12
  | .hcmdWord => 32

/-- The word has no bit above its format's width. -/
def Format.fits (f : Format) (w : Word) : Bool := w.toNat < 2 ^ f.width

/-- The formats that are activity of the bus, which the master has no move in while a flag is pending (R81, R95). -/
def Format.isBus : Format → Bool
  | .busSym | .wireAddr | .wireIndex | .wireData | .wireTx | .wireAck => true
  | .evWord | .tcmdWord | .hcmdWord => false

end Sys2Proof
end

