-- ==== Sys2Proof/Decode.lean ====
section
/-! DEFINITION. Decoding and encoding of the words of R60 (R62 to R74), total and rejecting by name. -/

namespace Sys2Proof

/-- Why a word is no instruction of its format. -/
inductive DecodeError where
  /-- A bit above the format's width is set. -/
  | tooWide
  /-- An event word of kind 0x0 or 0x6-0xF (R71, R77). -/
  | reservedEvent (w : BitVec 12)
  /-- A transport command 0x5-0xF (R72, R77). -/
  | reservedCommand (w : BitVec 12)
  /-- A host command op 0x6-0xF (R74, R132). -/
  | reservedOp
  /-- A host command with a nonzero field that must be zero (R74, R132). -/
  | reservedField
  /-- An event word whose kind is not reserved, with data bits its row of R71 does not list: no instruction of the
  table, but the engine goes by the kind (R99). -/
  | looseEvent (w : BitVec 12)
  /-- A transport command that is not reserved, with data bits its row of R72 does not list: no instruction of the
  table, but the transport goes by the command. -/
  | looseCommand (w : BitVec 12)
  deriving DecidableEq, Repr

/-- R70. -/
def decodeBusSym (w : Word) : Except DecodeError Instr :=
  match (w.extractLsb' 0 2).toNat with
  | 0 => .ok .clk0
  | 1 => .ok .clk1
  | 2 => .ok .start
  | _ => .ok .stop

/-- R71: kind `[11:8]`, data `[7:0]`. -/
def decodeEvent (w : Word) : Except DecodeError Instr :=
  let d := w.extractLsb' 0 8
  match (w.extractLsb' 8 4).toNat with
  | 1 => if d = 0 then .ok .evStart else .error (.looseEvent (w.extractLsb' 0 12))
  | 2 => if d.extractLsb' 1 7 = 0 then .ok (.evDoneIn1 (d.getLsbD 0)) else .error (.looseEvent (w.extractLsb' 0 12))
  | 3 => .ok (.evDoneIn8 d)
  | 4 => if d.extractLsb' 1 7 = 0 then .ok (.evDoneOut1 (d.getLsbD 0)) else .error (.looseEvent (w.extractLsb' 0 12))
  | 5 => .ok (.evDoneOut8 d)
  | _ => .error (.reservedEvent (w.extractLsb' 0 12))

/-- R72: command `[11:8]`, data `[7:0]`. -/
def decodeCommand (w : Word) : Except DecodeError Instr :=
  let d := w.extractLsb' 0 8
  match (w.extractLsb' 8 4).toNat with
  | 0 => if d = 0 then .ok .tDisarm else .error (.looseCommand (w.extractLsb' 0 12))
  | 1 => if d = 0 then .ok .tIn1 else .error (.looseCommand (w.extractLsb' 0 12))
  | 2 => if d = 0 then .ok .tIn8 else .error (.looseCommand (w.extractLsb' 0 12))
  | 3 => if d.extractLsb' 1 7 = 0 then .ok (.tOut1 (d.getLsbD 0)) else .error (.looseCommand (w.extractLsb' 0 12))
  | 4 => .ok (.tOut8 d)
  | _ => .error (.reservedCommand (w.extractLsb' 0 12))

/-- R74: op `[31:28]`; of a registration null `[27]`, zero `[26:24]`, len `[23:16]`, base `[15:0]`. -/
def decodeHost (w : Word) : Except DecodeError Instr :=
  let low := w.extractLsb' 0 28
  let zero := w.extractLsb' 24 3
  match (w.extractLsb' 28 4).toNat with
  | 0 => if low = 0 then .ok .nop else .error .reservedField
  | 1 => if zero = 0 then .ok (.regw (w.getLsbD 27) (w.extractLsb' 16 8) (w.extractLsb' 0 16)) else .error .reservedField
  | 2 => if zero = 0 then .ok (.regr (w.getLsbD 27) (w.extractLsb' 16 8) (w.extractLsb' 0 16)) else .error .reservedField
  | 3 => if low = 0 then .ok .arm else .error .reservedField
  | 4 => if low = 0 then .ok .qbusy else .error .reservedField
  | 5 => if low = 0 then .ok .status else .error .reservedField
  | _ => .error .reservedOp

/-- The instruction a word spells in a format (R60). -/
def decode (f : Format) (w : Word) : Except DecodeError Instr :=
  if f.fits w then
    match f with
    | .busSym => decodeBusSym w
    | .wireAddr => .ok (.addr (w.extractLsb' 1 7) (w.getLsbD 0))
    | .wireIndex => .ok (.index (w.extractLsb' 0 8))
    | .wireData => .ok (.dataW (w.extractLsb' 0 8))
    | .wireTx => .ok (.dataR (w.extractLsb' 0 8))
    | .wireAck => .ok (if w.getLsbD 0 then .nack else .ack)
    | .evWord => decodeEvent w
    | .tcmdWord => decodeCommand w
    | .hcmdWord => decodeHost w
  else .error .tooWide

/-- A 12-bit interface word: four bits of kind or command over a data byte (R71, R72). -/
def wordOf12 (kind : BitVec 4) (d : Byte) : Word := 0#20 ++ kind ++ d

/-- A 1-bit operand in the data byte: `0000000b` (R71, R72). -/
def bitByte (b : Bool) : Byte := 0#7 ++ BitVec.ofBool b

/-- A registration word (R74). -/
def wordOfReg (op : BitVec 4) (null : Bool) (len : Byte) (base : Addr) : Word :=
  op ++ BitVec.ofBool null ++ 0#3 ++ len ++ base

/-- The format an instruction's row has in R60. -/
def Instr.format : Instr → Format
  | .clk0 | .clk1 | .start | .stop => .busSym
  | .addr _ _ => .wireAddr
  | .index _ => .wireIndex
  | .dataW _ => .wireData
  | .dataR _ => .wireTx
  | .ack | .nack => .wireAck
  | .evStart | .evDoneIn1 _ | .evDoneIn8 _ | .evDoneOut1 _ | .evDoneOut8 _ => .evWord
  | .tDisarm | .tIn1 | .tIn8 | .tOut1 _ | .tOut8 _ => .tcmdWord
  | .nop | .regw _ _ _ | .regr _ _ _ | .arm | .qbusy | .status => .hcmdWord

/-- The word of an instruction in its format (R62, R64 to R67, R70 to R72, R74). -/
def encode : Instr → Word
  | .clk0 => 0b00#32
  | .clk1 => 0b01#32
  | .start => 0b10#32
  | .stop => 0b11#32
  | .addr a d => 0#24 ++ a ++ BitVec.ofBool d
  | .index i => 0#24 ++ i
  | .dataW v => 0#24 ++ v
  | .dataR v => 0#24 ++ v
  | .ack => 0#32
  | .nack => 1#32
  | .evStart => wordOf12 0x1#4 0
  | .evDoneIn1 b => wordOf12 0x2#4 (bitByte b)
  | .evDoneIn8 d => wordOf12 0x3#4 d
  | .evDoneOut1 b => wordOf12 0x4#4 (bitByte b)
  | .evDoneOut8 d => wordOf12 0x5#4 d
  | .tDisarm => wordOf12 0x0#4 0
  | .tIn1 => wordOf12 0x1#4 0
  | .tIn8 => wordOf12 0x2#4 0
  | .tOut1 b => wordOf12 0x3#4 (bitByte b)
  | .tOut8 v => wordOf12 0x4#4 v
  | .nop => 0x00000000#32
  | .regw null len base => wordOfReg 0x1#4 null len base
  | .regr null len base => wordOfReg 0x2#4 null len base
  | .arm => 0x30000000#32
  | .qbusy => 0x40000000#32
  | .status => 0x50000000#32

/-- The formats of the opcode table's rows of `nbits` bits in whole bytes, in the table's order. The table's words
name no format: rows of one width share words, and the first format that admits a word is taken. -/
def tableFormats (nbits : Nat) : List Format :=
  if nbits = 0 then []
  else if nbits = 1 then [.wireAck]
  else if nbits ≤ 8 then [.busSym, .wireAddr]
  else if nbits ≤ 16 then [.evWord, .tcmdWord]
  else if nbits ≤ 32 then [.hcmdWord]
  else []

/-- Does the format admit the word? -/
def Format.admits (f : Format) (w : Nat) : Bool :=
  match decode f (BitVec.ofNat 32 w) with
  | .ok _ => true
  | .error _ => false

/-- The first of the formats that admits the word, or the first one of all if none does. -/
def pickFormat (fs : List Format) (w : Nat) : Option Format :=
  match fs.find? (fun f => f.admits w) with
  | some f => some f
  | none => fs.head?

/-- The format in which a word of the opcode table is read, if any. -/
def tableFormat (nbits w : Nat) : Option Format :=
  if w < 2 ^ 32 then pickFormat (tableFormats nbits) w else none

/-- The instruction the decoder reads from a word of the opcode table. -/
def decodeTableWord (nbits w : Nat) : Option Instr :=
  match tableFormat nbits w with
  | none => none
  | some f => (decode f (BitVec.ofNat 32 w)).toOption

end Sys2Proof
end

