-- ==== Sys2Proof/Machine/State.lean ====
section
/-! DEFINITION. The state of the block and of its host (R20 to R36), what stops a run, and power-on reset (R147). -/

namespace Sys2Proof.Machine

/-- The codes of `E.state` (R23): eleven named states and five reserved codes. -/
inductive EState where
  | idle
  | receiveAddress
  | addressReceived
  | ackOrNack
  | receiveIndexByte
  | ackIndex
  | receiveByte
  | ackReceivedByte
  | transmitByte
  | ackSent
  | nackDone
  | reserved11
  | reserved12
  | reserved13
  | reserved14
  | reserved15
  deriving DecidableEq, Repr

/-- The direction of a transport transfer; `T.kind = NONE` is the absence of one (R16, R31). -/
inductive Dir where
  | inp
  | out
  deriving DecidableEq, Repr

/-- The length of a transport transfer: one bit or eight (R14, R31). -/
inductive XferLen where
  | one
  | eight
  deriving DecidableEq, Repr

/-- The endpoint record `E` (R20 to R28). -/
structure Endpoint where
  /-- `E.addr` (R21) -/
  addr : BitVec 7
  /-- `E.state` (R22, R23) -/
  state : EState
  /-- `E.direction`, true = READ (R24, R63) -/
  direction : Bool
  /-- `E.haveIndex` (R25) -/
  haveIndex : Bool
  /-- `E.index` (R26) -/
  index : Byte
  /-- `E.busy` (R27) -/
  busy : Bool
  /-- `E.checksum` (R28) -/
  checksum : Byte
  deriving DecidableEq, Repr

/-- The host-port registers `H` (R29, R30). -/
structure HostPort where
  /-- `H.wbase` -/
  wbase : Addr
  /-- `H.wlen` -/
  wlen : Byte
  /-- `H.rbase` -/
  rbase : Addr
  /-- `H.rlen` -/
  rlen : Byte
  /-- `H.armed` -/
  armed : Bool
  deriving DecidableEq, Repr

/-- The transport record `T` (R31, R32). -/
structure Transport where
  /-- `T.kind`, none = NONE -/
  kind : Option Dir
  /-- `T.n` -/
  n : XferLen
  /-- `T.cnt` -/
  cnt : BitVec 4
  /-- `T.out` -/
  out : Byte
  /-- `T.sr` -/
  sr : Byte
  /-- `T.drive`, true = released -/
  drive : Bool
  /-- `T.START_F` -/
  startF : Bool
  /-- `T.STOP_F` -/
  stopF : Bool
  /-- `T.DONE_F` -/
  doneF : Bool
  /-- `T.doneKind` -/
  doneKind : Dir
  /-- `T.doneN` -/
  doneN : XferLen
  /-- `T.doneData` -/
  doneData : Byte
  deriving DecidableEq, Repr

/-- Host memory `Mem` (R33): (address, byte) pairs, addresses strictly rising, no byte equal to what an unlisted
address reads as (`Memory.wf`). -/
abbrev Memory := List Host.Cell

/-- The reasons of `raise Fault(reason)` (R131). -/
inductive FaultReason where
  | unexpectedEvent
  | badState
  | badEvent
  | badTcmd
  deriving DecidableEq, Repr

/-- `FaultRec` (R131): the reason, `E.state[3:0]` and `ev[11:0]`. -/
structure FaultRec where
  reason : FaultReason
  state : BitVec 4
  ev : BitVec 12
  deriving DecidableEq, Repr

/-- The reasons of `refuse(reason)` (R132). -/
inductive RefuseReason where
  | reservedOp
  | reservedField
  | badBase
  | regionRange
  | inFlight
  | length
  deriving DecidableEq, Repr

/-- What one step puts out: the model's own record of the block's outputs. No step reads it. -/
structure Out where
  /-- the line values the master read on this step's clocks, the first first (R80, R86) -/
  line : List Bool
  /-- the transport command words the engine issued, in order (R72, R96) -/
  cmds : List (BitVec 12)
  /-- one activity code per engine step (R73, R125) -/
  acts : List (BitVec 2)
  /-- the response word of a host command (R74) -/
  resp : Option Word
  /-- the byte a host memory read returned (R118) -/
  loaded : Option Byte
  /-- the reason of a refused host command (R132) -/
  refusal : Option RefuseReason
  deriving DecidableEq, Repr

/-- Nothing put out yet. -/
def Out.empty : Out := { line := [], cmds := [], acts := [], resp := none, loaded := none, refusal := none }

/-- The whole state: the records of R20, the consumer's shadow (R34), the fault record (R131) and refusal mark
(R132), the build's parameters (R8), the script of inputs to come, and the last step's output. -/
structure State where
  /-- the build-time parameters (R8); no step changes them (R9) -/
  p : Params
  /-- `E` -/
  e : Endpoint
  /-- `T` -/
  t : Transport
  /-- `H` -/
  h : HostPort
  /-- `Mem` -/
  mem : Memory
  /-- `C.shadow` (R34, R128) -/
  shadow : List Byte
  /-- `FaultRec`, none while clear (R131) -/
  fault : Option FaultRec
  /-- the refusal mark (R132) -/
  refusalMark : Bool
  /-- the inputs still to come, the next first (the model's own) -/
  script : List Item
  /-- what the last step put out (the model's own) -/
  out : Out
  deriving DecidableEq, Repr

/-- What stops the machine with a fault. The spec's own `Fault(reason)` (R131) does not: it is recorded in the
state, and the host and the transport go on. -/
inductive Fault where
  /-- Raised by a host memory access (`h.st`, `h.ld`) at an address of 2^ADDR_WIDTH or more, which `Mem` does not
  have (R13, R33). Safe: the spec gives such an access no effect. -/
  | noSuchAddress (a : Addr)
  deriving DecidableEq, Repr

/-- What the model has no move for. -/
inductive Refusal where
  /-- The instruction of this mnemonic has no meaning yet. Raised by `exec` alone. Safe. -/
  | notModelled (mnemonic : String)
  /-- A bus symbol while `T.START_F` or `T.DONE_F` is 1: the master has no such move (R81 (a), R152). Raised by the
  bus symbols and by the wire frames made of them. Safe: the model stops where a late device may do anything. -/
  | flagPending
  /-- START or STOP while the block holds the line low: the master has no such move (R81 (b), R156). Raised by START
  and STOP. Safe: the model stops. -/
  | lineHeldLow
  /-- A host store into W, a breach of host duty: the host has no such move (R17, R54). Raised by `h.st`. Safe: the
  model stops. -/
  | hostStoreToW
  /-- A word with a bit above its format's width (R60): no word of that format. Raised by the step that fetches it.
  Safe: the model stops. -/
  | malformedWord
  deriving DecidableEq, Repr

/-- The power-on values of `E` (R36). -/
def Endpoint.powerOn (p : Params) (addr : BitVec 7) : Endpoint where
  addr := addr
  state := .idle
  direction := false
  haveIndex := false
  index := 0
  busy := false
  checksum := p.checksumSeed

/-- The power-on values of `H` (R36). -/
def HostPort.powerOn : HostPort where
  wbase := 0
  wlen := 0
  rbase := 0
  rlen := 0
  armed := false

/-- The power-on values of `T` (R36). -/
def Transport.powerOn : Transport where
  kind := none
  n := .eight
  cnt := 0
  out := 0xFF#8
  sr := 0x00#8
  drive := true
  startF := false
  stopF := false
  doneF := false
  doneKind := .out
  doneN := .one
  doneData := 0x00#8

/-- Power-on reset (R147). `Mem` and `C.shadow` are unspecified and are arguments; the script is what is still to
come. -/
def State.powerOn (p : Params) (addr : BitVec 7) (mem : Memory) (shadow : List Byte) (script : List Item) : State where
  p := p
  e := Endpoint.powerOn p addr
  t := Transport.powerOn
  h := HostPort.powerOn
  mem := mem
  shadow := shadow
  fault := none
  refusalMark := false
  script := script
  out := Out.empty

/-- The machine right after reset: R147 for the build of `Config`, nothing listed in memory, an empty shadow and no
input to come (DESIGN CHOICE, log entries 5, 6 and 7). -/
def State.reset : State := State.powerOn Config.build Config.slaveAddr [] [] []

end Sys2Proof.Machine
end

