-- ==== Sys2Proof/Machine/Operands.lean ====
section
/-! DEFINITION. Operand forms: the codes and words the block reads and puts out (R23, R71 to R75), the bits of a frame
(R61), the effective addresses of the two windows (R40, R41). -/

namespace Sys2Proof.Machine

/-- The code of a state (R23). -/
def EState.code : EState → BitVec 4
  | .idle => 0#4
  | .receiveAddress => 1#4
  | .addressReceived => 2#4
  | .ackOrNack => 3#4
  | .receiveIndexByte => 4#4
  | .ackIndex => 5#4
  | .receiveByte => 6#4
  | .ackReceivedByte => 7#4
  | .transmitByte => 8#4
  | .ackSent => 9#4
  | .nackDone => 10#4
  | .reserved11 => 11#4
  | .reserved12 => 12#4
  | .reserved13 => 13#4
  | .reserved14 => 14#4
  | .reserved15 => 15#4

/-- The resting states of R23, those of the dispatch table's rows (R99). -/
def EState.isResting : EState → Bool
  | .idle | .addressReceived | .receiveIndexByte | .receiveByte | .transmitByte | .ackSent | .nackDone => true
  | .receiveAddress | .ackOrNack | .ackIndex | .ackReceivedByte => false
  | .reserved11 | .reserved12 | .reserved13 | .reserved14 | .reserved15 => false

/-- ACK on the line (R16, R64). -/
def ACK : Bool := false

/-- NACK on the line (R16, R64). -/
def NACK : Bool := true

/-- The kinds of event word (R71). -/
inductive EvKind where
  | start
  | in1
  | in8
  | out1
  | out8
  deriving DecidableEq, Repr

/-- The event word of a kind with its data (R71): kind `[11:8]`, data `[7:0]`. -/
def eventWord (k : EvKind) (d : Byte) : BitVec 12 :=
  match k with
  | .start => 0x1#4 ++ d
  | .in1 => 0x2#4 ++ d
  | .in8 => 0x3#4 ++ d
  | .out1 => 0x4#4 ++ d
  | .out8 => 0x5#4 ++ d

/-- The kind of a completed transfer's event (R71, R94). -/
def doneEvent : Dir → XferLen → EvKind
  | .inp, .one => .in1
  | .inp, .eight => .in8
  | .out, .one => .out1
  | .out, .eight => .out8

/-- The transport commands (R72). -/
inductive TCmd where
  | disarm
  | in1
  | in8
  | out1 (b : Bool)
  | out8 (v : Byte)
  deriving DecidableEq, Repr

/-- The command word the engine issues (R72). -/
def commandWord : TCmd → BitVec 12
  | .disarm => 0x000#12
  | .in1 => 0x100#12
  | .in8 => 0x200#12
  | .out1 b => 0x3#4 ++ bitByte b
  | .out8 v => 0x4#4 ++ v

/-- The activity kinds (R73). -/
inductive Act where
  | none
  | rx
  | tx
  deriving DecidableEq, Repr

/-- The code of an activity kind (R73). -/
def actCode : Act → BitVec 2
  | .none => 0b00#2
  | .rx => 0b01#2
  | .tx => 0b10#2

/-- The bits of a byte in wire order, most significant first (R61). -/
def byteBits (v : Byte) : List Bool :=
  [v.getLsbD 7, v.getLsbD 6, v.getLsbD 5, v.getLsbD 4, v.getLsbD 3, v.getLsbD 2, v.getLsbD 1, v.getLsbD 0]

/-- The address byte `a ‖ dirbit` (R62). -/
def addrByte (a : BitVec 7) (d : Bool) : Byte := a ++ BitVec.ofBool d

/-- The host address of an offset into a region: base + zext(offset) at `ADDR_WIDTH` bits (R40, R41). -/
def regionAddr (p : Params) (base : Addr) (offset : Nat) : Nat := (base.toNat + offset) % 2 ^ p.addrWidth

/-- `waddr` (R40). -/
def waddr (s : State) : Nat := regionAddr s.p s.h.wbase s.e.index.toNat

/-- `raddr` (R41). -/
def raddr (s : State) : Nat := regionAddr s.p s.h.rbase s.e.index.toNat

/-- Is the address a byte of the writable window `[wbase, wbase + wlen)` (R39)? -/
def inW (s : State) (a : Nat) : Prop := ∃ k, k < s.h.wlen.toNat ∧ a = regionAddr s.p s.h.wbase k

/-- `inW` as a test. -/
def inWb (s : State) (a : Nat) : Bool :=
  (List.range s.h.wlen.toNat).any (fun k => a == regionAddr s.p s.h.wbase k)

/-- The armed-transfer field of the status word (R75, R124). -/
def armedCode (t : Transport) : BitVec 3 :=
  match t.kind, t.n with
  | none, _ => 0#3
  | some .inp, .one => 1#3
  | some .inp, .eight => 2#3
  | some .out, .one => 3#3
  | some .out, .eight => 4#3

/-- The status word (R75, R124). -/
def statusWord (s : State) : Word :=
  0#4 ++ armedCode s.t ++ BitVec.ofBool s.h.armed ++ s.e.checksum ++ s.e.index ++ BitVec.ofBool s.t.stopF
    ++ BitVec.ofBool s.e.busy ++ BitVec.ofBool s.e.haveIndex ++ BitVec.ofBool s.e.direction ++ s.e.state.code

end Sys2Proof.Machine
end

