-- ==== Sys2Proof/Machine/Flags.lean ====
section
/-! DEFINITION. Every condition the rules compute from flags: what enables the engine (R94), blocks the master (R81),
refuses a registration (R120), answers the busy query (R123). -/

namespace Sys2Proof.Machine

/-- A transport flag is set and not yet serviced: `T.START_F = 1` or `T.DONE_F = 1` (R81 (a), R94). -/
def flagged (t : Transport) : Bool := t.startF || t.doneF

/-- The engine may take a step: the block is armed (R30, R82) and no fault has stopped it (R131). -/
def engineLive (s : State) : Bool := s.h.armed && s.fault.isNone

/-- An engine step is enabled (R94, R131). -/
def engineEnabled (s : State) : Bool := engineLive s && flagged s.t

/-- The event word's kind that an enabled step reads (R94): START first, though the two are never both set (R37 I5). -/
def pendingKind (t : Transport) : EvKind := if t.startF then .start else doneEvent t.doneKind t.doneN

/-- The event word's data that an enabled step reads (R94). -/
def pendingData (t : Transport) : Byte := if t.startF then 0 else t.doneData

/-- A session may be in flight: a registration is refused `IN_FLIGHT` (R120, R155). -/
def inFlight (s : State) : Bool := s.h.armed && (s.e.state != .idle || s.t.startF || s.t.doneF)

/-- `parked` of the busy query (R123). -/
def parked (s : State) : Bool := s.p.healScope == .wide || s.e.state == .receiveByte

/-- The busy query heals: busy, a stop latched, and parked (R123). -/
def heals (s : State) : Bool := s.e.busy && s.t.stopF && parked s

/-- The busy query's answer: busy and not healed (R123). -/
def busyAnswer (s : State) : Bool := s.e.busy && !heals s

/-- The refusal a registration of `(base, len)` meets, the lowest code first (R120, R132). -/
def regRefusal (s : State) (base : Addr) (len : Byte) : Option RefuseReason :=
  if 2 ^ s.p.addrWidth ≤ base.toNat then some .badBase
  else if 2 ^ s.p.addrWidth < base.toNat + len.toNat then some .regionRange
  else if inFlight s then some .inFlight
  else none

end Sys2Proof.Machine
end

