-- ==== Sys2Proof/Machine/Ops.lean ====
section
/-! DEFINITION. The named operations: memory (R13, R33), the output record, the transport's primitives and its shift
(R14, R86, R89 to R93), the endpoint reset (R148), raising a fault (R131) and refusing a command (R132). -/

namespace Sys2Proof.Machine

/-- What an address that memory does not list reads as (R147 leaves it open; DESIGN CHOICE, log entry 5). -/
def Memory.unlisted : Byte := 0

/-- `MemRead(addr, 1)` (R13). -/
def Memory.read : Memory → Nat → Byte
  | [], _ => Memory.unlisted
  | (k, v) :: m, a => if k = a then v else Memory.read m a

/-- `MemWrite(addr, 1, v)` (R13), in canonical form: sorted, and no entry for a byte that reads as unlisted. -/
def Memory.write : Memory → Nat → Byte → Memory
  | [], a, v => if v = Memory.unlisted then [] else [(a, v)]
  | (k, w) :: m, a, v =>
    if a < k then (if v = Memory.unlisted then (k, w) :: m else (a, v) :: (k, w) :: m)
    else if a = k then (if v = Memory.unlisted then m else (a, v) :: m)
    else (k, w) :: Memory.write m a v

/-- The canonical form. -/
abbrev Memory.wf (m : Memory) : Prop := m.Pairwise (fun c d => c.1 < d.1) ∧ ∀ c ∈ m, c.2 ≠ Memory.unlisted

/-- Memory holding the given cells, the first of two at one address winning, each address taken at `width` bits. -/
def Memory.ofCells (width : Nat) : List (Addr × Byte) → Memory
  | [] => []
  | (a, v) :: cs => Memory.write (Memory.ofCells width cs) (a.toNat % 2 ^ width) v

/-- The master reads a line value (R80, R86). -/
def sawLine (v : Bool) (s : State) : State := { s with out := { s.out with line := s.out.line ++ [v] } }

/-- An engine step presents its activity code (R73, R125). -/
def present (a : Act) (s : State) : State := { s with out := { s.out with acts := s.out.acts ++ [actCode a] } }

/-- A host command returns its response word (R118). -/
def respond (w : Word) (s : State) : State := { s with out := { s.out with resp := some w } }

/-- A refused host command (R132): no state changes and no response, but the refusal mark is set for good. -/
def refuse (r : RefuseReason) (s : State) : State :=
  { s with refusalMark := true, out := { s.out with refusal := some r } }

/-- `raise Fault(reason)` (R131): the first fault is recorded, with `E.state` and the word, and nothing else changes. -/
def raise (r : FaultReason) (w : BitVec 12) (s : State) : State :=
  { s with fault := match s.fault with
      | some f => some f
      | none => some { reason := r, state := s.e.state.code, ev := w } }

/-- `Disarm()` (R89). -/
def disarm (t : Transport) : Transport := { t with kind := none, cnt := 0, drive := true }

/-- `Arm(IN, 1)` (R90). -/
def armIn1 (t : Transport) : Transport := { t with kind := some .inp, n := .one, cnt := 1, drive := true }

/-- `Arm(IN, 8)` (R91). -/
def armIn8 (t : Transport) : Transport := { t with kind := some .inp, n := .eight, cnt := 8, drive := true }

/-- `Arm(OUT, 1, b)` (R92). -/
def armOut1 (b : Bool) (t : Transport) : Transport :=
  { t with kind := some .out, n := .one, cnt := 1, out := bitByte b, drive := b }

/-- `Arm(OUT, 8, v)` (R93). -/
def armOut8 (v : Byte) (t : Transport) : Transport :=
  { t with kind := some .out, n := .eight, cnt := 8, out := v, drive := v.getLsbD 7 }

/-- What the transport does on a command (R72, R89 to R93). -/
def carryOut : TCmd → Transport → Transport
  | .disarm => disarm
  | .in1 => armIn1
  | .in8 => armIn8
  | .out1 b => armOut1 b
  | .out8 v => armOut8 v

/-- The engine issues a transport command (R72, R96). -/
def issue (c : TCmd) (s : State) : State :=
  { s with t := carryOut c s.t, out := { s.out with cmds := s.out.cmds ++ [commandWord c] } }

/-- `sr[6:0] ‖ v` (R86). -/
def shiftIn (sr : Byte) (v : Bool) : Byte := sr.extractLsb' 0 7 ++ BitVec.ofBool v

/-- `Shift(m)` of R86 with a transfer of direction `dir` armed. -/
def shift (dir : Dir) (m : Bool) (t : Transport) : Transport :=
  let v := m && t.drive
  let sr := shiftIn t.sr v
  let cnt := t.cnt - 1
  if cnt = 0 then
    { t with
      sr := sr, cnt := cnt, kind := none, drive := true
      doneF := true, doneKind := dir, doneN := t.n
      doneData := match t.n with
        | .eight => sr
        | .one => bitByte (sr.getLsbD 0) }
  else
    { t with
      sr := sr, cnt := cnt
      drive := match dir with
        | .out => t.out.getLsbD (cnt.toNat - 1)
        | .inp => t.drive }

/-- `EndpointReset()` (R148). -/
def endpointReset (s : State) : State :=
  issue .disarm
    { s with e := { s.e with
        state := .idle
        busy := false
        checksum := s.p.checksumSeed
        haveIndex := if s.p.resetClearsHaveIndex then false else s.e.haveIndex } }

/-- `E.state <- S` (R12, R22). -/
def setState (x : EState) (s : State) : State := { s with e := { s.e with state := x } }

end Sys2Proof.Machine
end

