-- ==== Sys2Proof/Machine/Commands.lean ====
section
/-! DEFINITION. The host's side: the command words (R118 to R124), host memory actions (R118), the commit consumer
(R128) and the source-level registration call (R74, R120, R132). -/

namespace Sys2Proof.Machine

/-- The region a registration names: a null buffer forces base and length 0 (R120, D17). -/
def regBase (null : Bool) (base : Addr) : Addr := if null then 0 else base

/-- The length a registration names (R120, D17). -/
def regLen (null : Bool) (len : Byte) : Byte := if null then 0 else len

/-- A registration: `f` writes the descriptor unless R120 refuses it. `C.shadow` keeps its bytes and its length although
`H.wlen` may change under it (R34; DESIGN CHOICE, log entry 36). -/
def registration (f : Addr → Byte → HostPort → HostPort) (null : Bool) (len : Byte) (base : Addr) (s : State) : State :=
  match regRefusal s (regBase null base) (regLen null len) with
  | some r => refuse r s
  | none => { s with h := f (regBase null base) (regLen null len) s.h }

/-- The last two lines of R120. -/
def setW (base : Addr) (len : Byte) (h : HostPort) : HostPort := { h with wbase := base, wlen := len }

/-- The last two lines of R121. -/
def setR (base : Addr) (len : Byte) (h : HostPort) : HostPort := { h with rbase := base, rlen := len }

/-- The busy query's effect on the block: the self-heal clears `E.busy` (R123). -/
def queryBusy (s : State) : State := { s with e := { s.e with busy := busyAnswer s } }

/-- NOP (R119). -/
def execNop (s : State) : Host.Outcome State Fault Refusal := .next s

/-- REGW (R120). -/
def execRegw (null : Bool) (len : Byte) (base : Addr) (s : State) : Host.Outcome State Fault Refusal :=
  .next (registration setW null len base s)

/-- REGR (R121). -/
def execRegr (null : Bool) (len : Byte) (base : Addr) (s : State) : Host.Outcome State Fault Refusal :=
  .next (registration setR null len base s)

/-- ARM (R122). -/
def execArm (s : State) : Host.Outcome State Fault Refusal := .next { s with h := { s.h with armed := true } }

/-- QBUSY (R123). -/
def execQbusy (s : State) : Host.Outcome State Fault Refusal :=
  .next (respond (0#31 ++ BitVec.ofBool (busyAnswer s)) (queryBusy s))

/-- STATUS (R124). -/
def execStatus (s : State) : Host.Outcome State Fault Refusal := .next (respond (statusWord s) s)

/-- `h.st addr, v` (R78, R118): an address outside `Mem` faults, a store into W is no move of the host (R54). -/
def hostStore (a : Addr) (v : Byte) (s : State) : Host.Outcome State Fault Refusal :=
  if 2 ^ s.p.addrWidth ≤ a.toNat then .fault (.noSuchAddress a)
  else if inWb s a.toNat then .refused .hostStoreToW
  else .next { s with mem := s.mem.write a.toNat v }

/-- `h.ld addr` (R78, R118). -/
def hostLoad (a : Addr) (s : State) : Host.Outcome State Fault Refusal :=
  if 2 ^ s.p.addrWidth ≤ a.toNat then .fault (.noSuchAddress a)
  else .next { s with out := { s.out with loaded := some (s.mem.read a.toNat) } }

/-- The control word, offset 0 of W (R128). -/
def controlWord (s : State) : Byte := s.mem.read (regionAddr s.p s.h.wbase 0)

/-- The payload, offsets 1 to wlen - 1 of W (R128). -/
def payload (s : State) : List Byte :=
  (List.range (s.h.wlen.toNat - 1)).map (fun k => s.mem.read (regionAddr s.p s.h.wbase (k + 1)))

/-- The commit test of R128, after the query. -/
def commits (s : State) : Bool :=
  !s.e.busy && s.h.wlen != 0 && (controlWord s &&& s.p.commitMask) == s.p.commitMagic

/-- `c.tick` (R128): the query with its self-heal, then the copy and the clearing of the commit bits. The copy replaces
the whole shadow by the payload at the `H.wlen` of this tick, whatever length the shadow had (R34; DESIGN CHOICE, log
entry 36). -/
def commitTick (s : State) : State :=
  let s := queryBusy s
  if commits s then
    { s with
      shadow := payload s
      mem := s.mem.write (regionAddr s.p s.h.wbase 0) (controlWord s &&& ~~~s.p.commitMask) }
  else s

/-- The source's registration call (R74): no buffer is a null buffer; a length above `LEN_MAX` has no command word
and is refused `LENGTH` (R120, R132), also where `BAD_BASE`, `REGION_RANGE` or `IN_FLIGHT` applies: the mapping refuses the
call before any command is formed (DESIGN CHOICE, log entry 37). -/
def hostRegister (writable : Bool) (buffer : Option Addr) (length : Nat) (s : State) : State :=
  match buffer with
  | none => registration (if writable then setW else setR) true 0 0 s
  | some base =>
    if Config.lenMax < length then refuse .length s
    else registration (if writable then setW else setR) false (BitVec.ofNat 8 length) base s

end Sys2Proof.Machine
end

