-- ==== Sys2Proof/Machine/Transport.lean ====
section
/-! DEFINITION. The transport command words (R72, R89 to R93), and a reserved one (R131). -/

namespace Sys2Proof.Machine

/-- The transport is given a command. -/
def command (c : TCmd) (s : State) : Host.Outcome State Fault Refusal := .next { s with t := carryOut c s.t }

/-- T_DISARM (R89). -/
def execTDisarm (s : State) : Host.Outcome State Fault Refusal := command .disarm s

/-- T_IN1 (R90). -/
def execTIn1 (s : State) : Host.Outcome State Fault Refusal := command .in1 s

/-- T_IN8 (R91). -/
def execTIn8 (s : State) : Host.Outcome State Fault Refusal := command .in8 s

/-- T_OUT1 (R92). -/
def execTOut1 (b : Bool) (s : State) : Host.Outcome State Fault Refusal := command (.out1 b) s

/-- T_OUT8 (R93). -/
def execTOut8 (v : Byte) (s : State) : Host.Outcome State Fault Refusal := command (.out8 v) s

/-- A reserved transport command faults `BAD_TCMD` (R72, R131); the word is recorded in the event's place. -/
def reservedCommand (w : BitVec 12) (s : State) : State := raise .badTcmd w s

/-- A command that is not reserved, with data bits its row of R72 does not list: the transport goes by the command,
and the operand of a 1-bit transfer is the low bit (R14, R72; DEDUCED, log entry 18). -/
def looseCommand (w : BitVec 12) (s : State) : State :=
  match (w.extractLsb' 8 4).toNat with
  | 0 => { s with t := disarm s.t }
  | 1 => { s with t := armIn1 s.t }
  | 2 => { s with t := armIn8 s.t }
  | 3 => { s with t := armOut1 (w.getLsbD 0) s.t }
  | _ => reservedCommand w s

end Sys2Proof.Machine
end

