-- ==== Sys2Proof/Machine/Bus.lean ====
section
/-! DEFINITION. The bus symbols (R80 to R88). -/

namespace Sys2Proof.Machine

/-- A clock with the master driving `m` (R82, R86, R87, R88). While unarmed the line is the master's drive (R82);
with nothing armed it is too (R87, R88). -/
def busClock (m : Bool) (s : State) : Host.Outcome State Fault Refusal :=
  if !s.h.armed then .next (sawLine m s)
  else if flagged s.t then .refused .flagPending
  else match s.t.kind with
    | none => .next (sawLine m s)
    | some dir => .next (sawLine (m && s.t.drive) { s with t := shift dir m s.t })

/-- A start or stop condition, which needs a line edge (R81 (a), (b), R82): `f` is what the detector does. -/
def busEdge (f : Transport → Transport) (s : State) : Host.Outcome State Fault Refusal :=
  if !s.h.armed then .next s
  else if flagged s.t then .refused .flagPending
  else if !s.t.drive then .refused .lineHeldLow
  else .next { s with t := f s.t }

/-- What the detector does on a start condition (R83). -/
def startCondition (t : Transport) : Transport := { t with startF := true, kind := none, cnt := 0, drive := true }

/-- What the detector does on a stop condition (R84). -/
def stopCondition (t : Transport) : Transport := { t with stopF := true, kind := none, cnt := 0, drive := true }

/-- CLK0 (R87). -/
def execClk0 (s : State) : Host.Outcome State Fault Refusal := busClock false s

/-- CLK1 (R88). -/
def execClk1 (s : State) : Host.Outcome State Fault Refusal := busClock true s

/-- START (R83). -/
def execStart (s : State) : Host.Outcome State Fault Refusal := busEdge startCondition s

/-- STOP (R84). -/
def execStop (s : State) : Host.Outcome State Fault Refusal := busEdge stopCondition s

end Sys2Proof.Machine
end

