-- ==== Sys2Proof/Machine/Engine.lean ====
section
/-! DEFINITION. The protocol engine: the rows of §4.1 (R100 to R112), the dispatch table (R99), the engine step (R96)
and the meanings of the event words (R71). Transient states are run in order and not stored (R23, R98). -/

namespace Sys2Proof.Machine

/-- The last action of a step that services START: clear the flag (R96, R101). -/
def clearStart (s : State) : State := { s with t := { s.t with startF := false } }

/-- The last action of a step that services a DONE: clear the flag (R96). -/
def clearDone (s : State) : State := { s with t := { s.t with doneF := false } }

/-- R101, the START handler and row ReceiveAddress. -/
def startHandler (s : State) : State :=
  let s := if s.t.stopF then endpointReset s else s
  let s := { s with t := { s.t with stopF := false } }
  clearStart (present .none (setState .addressReceived (issue .in8 s)))

/-- R103, row AckOrNack. -/
def ackOrNack (hit : Bool) (s : State) : State :=
  if !hit then setState .nackDone (issue (.out1 NACK) s)
  else if s.e.direction then
    if s.e.haveIndex then setState .transmitByte (issue (.out1 ACK) s)
    else if s.p.readWithoutIndex then
      setState .transmitByte (issue (.out1 ACK) { s with e := { s.e with index := 0, haveIndex := true } })
    else setState .nackDone (issue (.out1 NACK) s)
  else
    if s.e.haveIndex then setState .receiveByte (issue (.out1 ACK) s)
    else setState .receiveIndexByte (issue (.out1 ACK) s)

/-- R102, row AddressReceived: the address matcher, then R103. -/
def addressReceived (d : Byte) (s : State) : State :=
  let hit := d.extractLsb' 1 7 == s.e.addr
  present .none (ackOrNack hit { s with e := { s.e with direction := d.getLsbD 0 } })

/-- R104: after the engine's own acknowledge bit, arm the next eight bits in. -/
def armNextByte (s : State) : State := present .none (issue .in8 s)

/-- R106, row AckIndex. -/
def ackIndex (s : State) : State := setState .receiveByte (issue (.out1 ACK) s)

/-- R105, row ReceiveIndexByte, then R106. -/
def receiveIndexByte (d : Byte) (s : State) : State :=
  present .none (ackIndex { s with e := { s.e with index := d, haveIndex := true } })

/-- R108, row AckReceivedByte. -/
def ackReceivedByte (bit : Bool) (s : State) : State :=
  setState (if bit = ACK then .receiveByte else .nackDone) (issue (.out1 bit) s)

/-- R107, row ReceiveByte, then R108. -/
def receiveByte (d : Byte) (s : State) : State :=
  let s := { s with e := { s.e with haveIndex := false } }
  if s.e.index < s.h.wlen then
    let a := waddr s
    ackReceivedByte ACK (present .rx { s with
      e := { s.e with busy := true, index := s.e.index + 1 }
      mem := s.mem.write a d })
  else ackReceivedByte NACK (present .none s)

/-- R109, row TransmitByte once the master's NACK has been ruled out: draw a region byte or repeat the checksum. -/
def transmitByte (s : State) : State :=
  if s.e.index < s.h.rlen then
    let b := s.mem.read (raddr s)
    setState .ackSent (present .tx (issue (.out8 b)
      { s with e := { s.e with index := s.e.index + 1, checksum := s.e.checksum ^^^ b } }))
  else setState .ackSent (present .tx (issue (.out8 s.e.checksum) s))

/-- R110: after the engine's eight bits out, arm the master's acknowledge bit. -/
def armMasterAck (s : State) : State := present .none (issue .in1 s)

/-- R111, row AckSent, then R109 as a non-initial byte: a master NACK aborts the session. -/
def ackSent (mack : Bool) (s : State) : State :=
  let s := { s with e := { s.e with haveIndex := false } }
  if mack = NACK then present .none (endpointReset s) else transmitByte s

/-- R112, row NackDone. -/
def nackDone (s : State) : State := present .none (endpointReset s)

/-- An `F` cell of the dispatch table (R99). -/
def unexpected (k : EvKind) (d : Byte) (s : State) : State := present .none (raise .unexpectedEvent (eventWord k d) s)

/-- The dispatch table of R99. A step that raises no fault clears the flag it serviced as its last action (R96). -/
def dispatch (k : EvKind) (d : Byte) (s : State) : State :=
  if !s.e.state.isResting then present .none (raise .badState (eventWord k d) s)
  else match k with
    | .start => startHandler s
    | .in1 => match s.e.state with
      | .ackSent => clearDone (ackSent (d.getLsbD 0) s)
      | _ => unexpected k d s
    | .in8 => match s.e.state with
      | .addressReceived => clearDone (addressReceived d s)
      | .receiveIndexByte => clearDone (receiveIndexByte d s)
      | .receiveByte => clearDone (receiveByte d s)
      | _ => unexpected k d s
    | .out1 => match s.e.state with
      | .receiveIndexByte => clearDone (armNextByte s)
      | .receiveByte => clearDone (armNextByte s)
      | .transmitByte => clearDone (transmitByte s)
      | .nackDone => clearDone (nackDone s)
      | _ => unexpected k d s
    | .out8 => match s.e.state with
      | .ackSent => clearDone (armMasterAck s)
      | _ => unexpected k d s

/-- The engine step on an event word (R96). Unarmed or faulted, the engine takes no step (R30, R82, R131). -/
def engineStep (k : EvKind) (d : Byte) (s : State) : State := if engineLive s then dispatch k d s else s

/-- The engine step on an event word of a reserved kind (R99, R137): BAD_STATE is checked before BAD_EVENT. -/
def reservedEvent (w : BitVec 12) (s : State) : State :=
  if engineLive s then
    present .none (raise (if s.e.state.isResting then .badEvent else .badState) w s)
  else s

/-- The engine step on an event word whose kind is not reserved but whose data bits its row of R71 does not list: the
dispatch goes by the kind, and a 1-bit operand is bit 0 (R99, R111; DEDUCED, log entry 18). -/
def looseEvent (w : BitVec 12) (s : State) : State :=
  let d := w.extractLsb' 0 8
  match (w.extractLsb' 8 4).toNat with
  | 1 => engineStep .start d s
  | 2 => engineStep .in1 d s
  | 4 => engineStep .out1 d s
  | _ => reservedEvent w s

/-- The engine step of a pending flag, if one is enabled (R94). -/
def serveEngine (s : State) : State :=
  if engineEnabled s then engineStep (pendingKind s.t) (pendingData s.t) s else s

/-- EV_START (R101). -/
def execEvStart (s : State) : Host.Outcome State Fault Refusal := .next (engineStep .start 0 s)

/-- EV_DONE_IN1 (R111). -/
def execEvDoneIn1 (b : Bool) (s : State) : Host.Outcome State Fault Refusal := .next (engineStep .in1 (bitByte b) s)

/-- EV_DONE_IN8 (R102, R105, R107). -/
def execEvDoneIn8 (d : Byte) (s : State) : Host.Outcome State Fault Refusal := .next (engineStep .in8 d s)

/-- EV_DONE_OUT1 (R104, R109, R112). -/
def execEvDoneOut1 (b : Bool) (s : State) : Host.Outcome State Fault Refusal := .next (engineStep .out1 (bitByte b) s)

/-- EV_DONE_OUT8 (R110). -/
def execEvDoneOut8 (d : Byte) (s : State) : Host.Outcome State Fault Refusal := .next (engineStep .out8 d s)

end Sys2Proof.Machine
end

