-- ==== Sys2Proof/Machine/Wire.lean ====
section
/-! DEFINITION. The wire frames (R61 to R69): a frame is its clocks on the line, most significant bit first. The
master drives the frame's bits, 1 being released (R80), so that the line carries the frame wherever the master sends
it, and carries it too where the slave sends the same bits. The engine is served after each clock (R95). What role a
byte has is its position in the phase (R69), that is, the state of the engine. -/

namespace Sys2Proof.Machine

/-- A clock and then the engine step it enables, which is taken before the master's next symbol (R95). -/
def clockServed (m : Bool) (s : State) : Host.Outcome State Fault Refusal :=
  match busClock m s with
  | .next t => .next (serveEngine t)
  | .fault r => .fault r
  | .refused r => .refused r

/-- The clocks of a frame, in order. -/
def frame : List Bool → State → Host.Outcome State Fault Refusal
  | [], s => .next s
  | m :: ms, s =>
    match clockServed m s with
    | .next t => frame ms t
    | .fault r => .fault r
    | .refused r => .refused r

/-- ADDR (R62, R102): the address byte `a ‖ d`. -/
def execAddr (a : BitVec 7) (d : Bool) (s : State) : Host.Outcome State Fault Refusal :=
  frame (byteBits (addrByte a d)) s

/-- INDEX (R65, R105): the index byte. -/
def execIndex (i : Byte) (s : State) : Host.Outcome State Fault Refusal := frame (byteBits i) s

/-- DATA_W (R66, R107): a data byte from the master. -/
def execDataW (v : Byte) (s : State) : Host.Outcome State Fault Refusal := frame (byteBits v) s

/-- DATA_R (R67, R93, R109): the eight clocks of a byte the slave sends, which R109 armed. -/
def execDataR (v : Byte) (s : State) : Host.Outcome State Fault Refusal := frame (byteBits v) s

/-- ACK (R64): an acknowledge clock that carries 0. -/
def execAck (s : State) : Host.Outcome State Fault Refusal := frame [ACK] s

/-- NACK (R64): an acknowledge clock that carries 1 unless the slave pulls the line low. -/
def execNack (s : State) : Host.Outcome State Fault Refusal := frame [NACK] s

end Sys2Proof.Machine
end

