-- ==== Sys2Proof/Machine/Dispatch.lean ====
section
/-! DEFINITION. One arm per instruction of spec/opcode_table.json. -/

namespace Sys2Proof.Machine

/-- What an instruction does. -/
def exec (i : Instr) (s : State) : Host.Outcome State Fault Refusal :=
  match i with
  -- bus symbols (R70)
  | .clk0 => Sys2Proof.Machine.execClk0 s
  | .clk1 => Sys2Proof.Machine.execClk1 s
  | .start => Sys2Proof.Machine.execStart s
  | .stop => Sys2Proof.Machine.execStop s
  -- wire frames (R62 to R67)
  | .addr a d => Sys2Proof.Machine.execAddr a d s
  | .index x => Sys2Proof.Machine.execIndex x s
  | .dataW v => Sys2Proof.Machine.execDataW v s
  | .dataR v => Sys2Proof.Machine.execDataR v s
  | .ack => Sys2Proof.Machine.execAck s
  | .nack => Sys2Proof.Machine.execNack s
  -- event words (R71)
  | .evStart => Sys2Proof.Machine.execEvStart s
  | .evDoneIn1 b => Sys2Proof.Machine.execEvDoneIn1 b s
  | .evDoneIn8 d => Sys2Proof.Machine.execEvDoneIn8 d s
  | .evDoneOut1 b => Sys2Proof.Machine.execEvDoneOut1 b s
  | .evDoneOut8 d => Sys2Proof.Machine.execEvDoneOut8 d s
  -- transport commands (R72)
  | .tDisarm => Sys2Proof.Machine.execTDisarm s
  | .tIn1 => Sys2Proof.Machine.execTIn1 s
  | .tIn8 => Sys2Proof.Machine.execTIn8 s
  | .tOut1 b => Sys2Proof.Machine.execTOut1 b s
  | .tOut8 v => Sys2Proof.Machine.execTOut8 v s
  -- host commands (R74)
  | .nop => Sys2Proof.Machine.execNop s
  | .regw null len base => Sys2Proof.Machine.execRegw null len base s
  | .regr null len base => Sys2Proof.Machine.execRegr null len base s
  | .arm => Sys2Proof.Machine.execArm s
  | .qbusy => Sys2Proof.Machine.execQbusy s
  | .status => Sys2Proof.Machine.execStatus s

end Sys2Proof.Machine
end

