-- ==== Sys2Proof/Machine/Script.lean ====
section
/-! DEFINITION. Script notation: packed master scripts (R70), the pseudo-instructions (R79), and the symbols of line
samples (R85). All of it is text that expands to items; the block sees only the expansion. -/

namespace Sys2Proof.Machine

/-- An instruction as an item of a script. -/
def itemOf (i : Instr) : Item := .word i.format (encode i)

/-- `n` symbols of a packed master script, two bits each, the first in the lowest bits (R70). -/
def unpackScript : Nat → Nat → List Item
  | 0, _ => []
  | n + 1, w => .word .busSym (BitVec.ofNat 32 (w % 4)) :: unpackScript n (w / 4)

/-- `C(b)` (R79). -/
def clockItem (b : Bool) : Item := itemOf (if b then .clk1 else .clk0)

/-- The bits of a byte, most significant first (R61). -/
def bitItems (v : Byte) : List Item :=
  [7, 6, 5, 4, 3, 2, 1, 0].map (fun k => clockItem (v.getLsbD k))

/-- `WB v` (R79). -/
def scriptWB (v : Byte) : List Item := bitItems v ++ [clockItem true]

/-- `RB ACK` and `RB NACK` (R79), by the acknowledge bit. -/
def scriptRB (bit : Bool) : List Item := bitItems 0xFF#8 ++ [clockItem bit]

/-- `S` (R78). -/
def scriptS : List Item := [itemOf .start]

/-- `P` (R78). -/
def scriptP : List Item := [itemOf .stop]

/-- `ADDRW` (R79) for the slave address. -/
def scriptADDRW (a : BitVec 7) : List Item := scriptWB (a ++ 0#1)

/-- `ADDRR` (R79). -/
def scriptADDRR (a : BitVec 7) : List Item := scriptWB (a ++ 1#1)

/-- `(RB ACK)×(n-1) RB NACK` (R79). -/
def scriptReads : Nat → List Item
  | 0 => []
  | 1 => scriptRB true
  | n + 2 => scriptRB false ++ scriptReads (n + 1)

/-- `WRITE i, v0, ..., vk` (R79). -/
def scriptWRITE (a : BitVec 7) (i : Byte) (vs : List Byte) : List Item :=
  scriptS ++ scriptADDRW a ++ scriptWB i ++ vs.flatMap scriptWB ++ scriptP

/-- `WRITEDATA v0, ..., vk` (R79). -/
def scriptWRITEDATA (a : BitVec 7) (vs : List Byte) : List Item :=
  scriptS ++ scriptADDRW a ++ vs.flatMap scriptWB ++ scriptP

/-- `SETINDEX i` (R79). -/
def scriptSETINDEX (a : BitVec 7) (i : Byte) : List Item := scriptS ++ scriptADDRW a ++ scriptWB i ++ scriptP

/-- `READ n` (R79). -/
def scriptREAD (a : BitVec 7) (n : Nat) : List Item := scriptS ++ scriptADDRR a ++ scriptReads n ++ scriptP

/-- `WRREAD i, n` (R79). -/
def scriptWRREAD (a : BitVec 7) (i : Byte) (n : Nat) : List Item :=
  scriptS ++ scriptADDRW a ++ scriptWB i ++ scriptS ++ scriptADDRR a ++ scriptReads n ++ scriptP

/-- The symbols of line samples (scl, sda) (R85): `before` is the sample before the list, `bit` the line value
sampled at a rising clock edge whose falling edge is still to come. A start or stop condition ends that pulse. -/
def symbolsOfSamples (before : Bool × Bool) (bit : Option Bool) : List (Bool × Bool) → List Instr
  | [] => []
  | now :: rest =>
    match before, now with
    | (true, true), (true, false) => .start :: symbolsOfSamples now none rest
    | (true, false), (true, true) => .stop :: symbolsOfSamples now none rest
    | (false, _), (true, v) => symbolsOfSamples now (some v) rest
    | (true, _), (false, _) =>
      match bit with
      | some v => (if v then .clk1 else .clk0) :: symbolsOfSamples now none rest
      | none => symbolsOfSamples now none rest
    | (true, true), (true, true) => symbolsOfSamples now bit rest
    | (true, false), (true, false) => symbolsOfSamples now bit rest
    | (false, _), (false, _) => symbolsOfSamples now bit rest

end Sys2Proof.Machine
end

