-- ==== Sys2Proof/Machine/Fetch.lean ====
section
/-! DEFINITION. Running the next item of the script: fetch and decode of a word, the words that are no instruction
(R77, R131, R132), and the items that are no word (R85, R118, R128, R147). -/

namespace Sys2Proof.Machine

/-- A word that is no instruction of its format (R77). -/
def rejected (err : DecodeError) (s : State) : Host.Outcome State Fault Refusal :=
  match err with
  | .reservedEvent w => .next (reservedEvent w s)
  | .reservedCommand w => .next (reservedCommand w s)
  | .reservedOp => .next (refuse .reservedOp s)
  | .reservedField => .next (refuse .reservedField s)
  | .tooWide => .refused .malformedWord
  | .looseEvent w => .next (looseEvent w s)
  | .looseCommand w => .next (looseCommand w s)

/-- A word of a script: decoded, then carried out. -/
def runWord (f : Format) (w : Word) (s : State) : Host.Outcome State Fault Refusal :=
  match decode f w with
  | .ok i => exec i s
  | .error err => rejected err s

/-- One item of the script. A samples input starts with no sampled bit pending, so a pulse whose rising edge ends one
input and whose falling edge begins the next gives no symbol (R85; DESIGN CHOICE, log entry 33). -/
def runItem (it : Item) (s : State) : Host.Outcome State Fault Refusal :=
  match it with
  | .word f w => runWord f w s
  | .store a v => hostStore a v s
  | .load a => hostLoad a s
  | .tick => .next (commitTick s)
  | .register writable buffer length => .next (hostRegister writable buffer length s)
  | .serve => .next (serveEngine s)
  | .samples before rest => .next { s with script := (symbolsOfSamples before none rest).map itemOf ++ s.script }
  | .powerOn cells shadow =>
    .next (State.powerOn s.p s.e.addr (Memory.ofCells s.p.addrWidth cells) shadow s.script)

/-- The item is activity of the bus, before which an enabled engine step is taken (R95, R137). -/
def itemIsBus : Item → Bool
  | .word f _ => f.isBus
  | .store _ _ | .load _ | .tick | .register _ _ _ | .serve | .samples _ _ | .powerOn _ _ => false

/-- The state in which a step begins: nothing put out yet. -/
def beginStep (s : State) : State := { s with out := Out.empty }

/-- The state in which the next item runs: taken off the script, nothing put out yet. -/
def takeItem (rest : List Item) (s : State) : State := { s with script := rest, out := Out.empty }

/-- One step: an enabled engine step before bus activity (R95) or at the end of the script, otherwise the next item;
with neither, the block waits (R142, R151). -/
def stepMachine (s : State) : Host.Outcome State Fault Refusal :=
  match s.script with
  | [] => .next (serveEngine (beginStep s))
  | it :: rest =>
    if itemIsBus it && engineEnabled s then .next (serveEngine (beginStep s))
    else runItem it (takeItem rest s)

/-- The opcode-table word as the next item of the script. -/
def placeWord (s : State) (nbits w : Nat) : State :=
  match tableFormat nbits w with
  | some f => { s with script := .word f (BitVec.ofNat 32 w) :: s.script }
  | none => s

end Sys2Proof.Machine
end

