-- ==== Sys2Proof/Safety.lean ====
section
/-! DEFINITION. What a safe state is: the invariants of R37 and R98 under the duties of R17, in the terms the claims
use. -/

namespace Sys2Proof.Safety

open Sys2Proof.Machine

/-- The number of bits of a transfer. -/
def bitsOf : XferLen → Nat
  | .one => 1
  | .eight => 8

/-- The transfer the transport has completed and not handed over, or else the one it has armed. -/
def pendingXfer (t : Transport) : Option (Dir × XferLen) :=
  if t.doneF then some (t.doneKind, t.doneN)
  else match t.kind with
    | some dir => some (dir, t.n)
    | none => none

/-- The transfers a resting state waits for (R23's last column, R99). -/
def waitsFor : EState → Dir × XferLen → Bool
  | .addressReceived, (.inp, .eight) => true
  | .receiveIndexByte, (.inp, .eight) | .receiveIndexByte, (.out, .one) => true
  | .receiveByte, (.inp, .eight) | .receiveByte, (.out, .one) => true
  | .transmitByte, (.out, .one) => true
  | .ackSent, (.out, .eight) | .ackSent, (.inp, .one) => true
  | .nackDone, (.out, .one) => true
  | _, _ => false

/-- The transport's own invariant: R37 (I5) and (I6), the range of `T.cnt` (R31), and what it drives (R89 to R93). -/
structure TransportOk (t : Transport) : Prop where
  oneFlag : ¬ (t.startF = true ∧ t.doneF = true)
  flagDisarms : flagged t = true → t.kind = none
  unarmed : t.kind = none → t.cnt = 0 ∧ t.drive = true
  armedCount : t.kind ≠ none → 1 ≤ t.cnt.toNat ∧ t.cnt.toNat ≤ bitsOf t.n
  inReleases : t.kind = some .inp → t.drive = true
  outDrives : t.kind = some .out → t.drive = t.out.getLsbD (t.cnt.toNat - 1)

/-- The engine waits for what the transport has pending (R98). In Idle nothing is pending; in any other resting state
nothing is only when a start is unserviced or a stop has parked the engine (R83, R84). -/
def EngineWaits (s : State) : Prop :=
  match pendingXfer s.t with
  | some x => waitsFor s.e.state x = true
  | none => s.e.state = .idle ∨ s.t.startF = true ∨ s.t.stopF = true

/-- No input of the script breaks into the block's own interfaces: every event and transport command comes from the
block itself (R71, R72). -/
def itemDutiful : Item → Bool
  | .word f _ => f != .evWord && f != .tcmdWord
  | _ => true

/-- The invariant of every run from power-on under the duties (R37, R98, R131). -/
structure Inv (s : State) : Prop where
  params : s.p.wf = true
  wRegion : s.p.regionFits s.h.wbase s.h.wlen = true
  rRegion : s.p.regionFits s.h.rbase s.h.rlen = true
  resting : s.e.state.isResting = true
  transport : TransportOk s.t
  waits : EngineWaits s
  idleClean : s.e.state = .idle → s.e.busy = false ∧ s.e.checksum = s.p.checksumSeed ∧ s.t.kind = none ∧ s.t.doneF = false
  unarmedQuiet : s.h.armed = false → s.e.state = .idle ∧ flagged s.t = false
  memCanonical : s.mem.wf
  memInRange : ∀ c ∈ s.mem, c.1 < 2 ^ s.p.addrWidth
  noFault : s.fault = none
  dutiful : ∀ it ∈ s.script, itemDutiful it = true

end Sys2Proof.Safety
end

