-- ==== Sys2Proof/Certificates/Slice0/Obligations.lean ====
section
/-! DEFINITION. The statements for the provers, and the words they are written in (namespace Sys2Proof.Claims): closed
forms read off the rules, none of them a name of the machine's meanings. -/

namespace Sys2Proof.Claims

open Sys2Proof.Machine

/-- Instructions carried out one after the other. -/
def execAll : List Instr → State → Host.Outcome State Fault Refusal
  | [], s => .next s
  | i :: is, s =>
    match exec i s with
    | .next t => execAll is t
    | .fault r => .fault r
    | .refused r => .refused r

/-- The clock symbol of a master's bit (R79). -/
def clockOf (m : Bool) : Instr := if m then .clk1 else .clk0

/-- The bits a bus word puts on the line if nobody pulls it low but the master, the first first (R61 to R67, R70). -/
def lineBits : Instr → List Bool
  | .clk0 => [false]
  | .clk1 => [true]
  | .addr a d => byteBits (a ++ BitVec.ofBool d)
  | .index v | .dataW v | .dataR v => byteBits v
  | .ack => [false]
  | .nack => [true]
  | _ => []

/-- Samples (scl, sda) of the wires over one bus symbol, the clock low at its first sample (R85). -/
def waveOf : Instr → List (Bool × Bool)
  | .clk0 => [(false, false), (true, false), (false, false)]
  | .clk1 => [(false, true), (true, true), (false, true)]
  | .start => [(false, true), (true, true), (true, false)]
  | .stop => [(false, false), (true, false), (true, true)]
  | _ => []

/-- The acknowledge frame of a bit (R64). -/
def ackOf (bit : Bool) : Instr := if bit then .nack else .ack

/-- The output record after an engine step that issued `cmds` and presented `act`. -/
def engineOut (o : Out) (cmds : List (BitVec 12)) (act : BitVec 2) : Out :=
  { o with cmds := o.cmds ++ cmds, acts := o.acts ++ [act] }

/-- The engine is armed and no fault has stopped it. -/
def Live (s : State) : Prop := s.h.armed = true ∧ s.fault = none

/-- The host port is free for a registration (R120): not armed, or Idle with no flag pending. -/
def Free (s : State) : Prop :=
  s.h.armed = false ∨ (s.e.state = .idle ∧ s.t.startF = false ∧ s.t.doneF = false)

/-- No flag is pending (R81 (a)). -/
def Quiet (t : Transport) : Prop := t.startF = false ∧ t.doneF = false

/-- A whole byte is armed in (R91). -/
def ByteIn (t : Transport) : Prop :=
  Quiet t ∧ t.kind = some .inp ∧ t.n = .eight ∧ t.cnt = 8 ∧ t.drive = true

/-- A whole byte `b` is armed out (R93). -/
def ByteOut (b : Byte) (t : Transport) : Prop :=
  Quiet t ∧ t.kind = some .out ∧ t.n = .eight ∧ t.cnt = 8 ∧ t.out = b ∧ t.drive = b.getLsbD 7

/-- One bit is armed in (R90). -/
def BitIn (t : Transport) : Prop :=
  Quiet t ∧ t.kind = some .inp ∧ t.n = .one ∧ t.cnt = 1 ∧ t.drive = true

/-- The bit `b` is armed out (R92). -/
def BitOut (b : Bool) (t : Transport) : Prop :=
  Quiet t ∧ t.kind = some .out ∧ t.n = .one ∧ t.cnt = 1 ∧ t.drive = b

/-- The transport of R91 after a byte `v` came in, its flag already serviced. -/
def gotByte (t : Transport) (v : Byte) : Transport :=
  { t with sr := v, doneKind := .inp, doneN := .eight, doneData := v, doneF := false }

/-- The transport driving the acknowledge bit `b` (R92), the serviced flag cleared. -/
def drivesBit (t : Transport) (b : Bool) : Transport :=
  { t with kind := some .out, n := .one, cnt := 1, out := if b then 1 else 0, drive := b, doneF := false }

/-- The transport driving the byte `v` (R93), the serviced flag cleared. -/
def drivesByte (t : Transport) (v : Byte) : Transport :=
  { t with kind := some .out, n := .eight, cnt := 8, out := v, drive := v.getLsbD 7, doneF := false }

/-- The transport waiting for a byte (R91), the serviced flag cleared. -/
def awaitsByte (t : Transport) : Transport :=
  { t with kind := some .inp, n := .eight, cnt := 8, drive := true, doneF := false }

/-- The transport waiting for a bit (R90), the serviced flag cleared. -/
def awaitsBit (t : Transport) : Transport :=
  { t with kind := some .inp, n := .one, cnt := 1, drive := true, doneF := false }

/-- The transport disarmed (R89), the serviced flag cleared. -/
def released (t : Transport) : Transport := { t with kind := none, cnt := 0, drive := true, doneF := false }

/-- The endpoint after `EndpointReset()` (R148). -/
def resetEndpoint (p : Params) (e : Endpoint) : Endpoint :=
  { e with
    state := .idle, busy := false, checksum := p.checksumSeed
    haveIndex := if p.resetClearsHaveIndex then false else e.haveIndex }

/-- The command word that drives an acknowledge bit (R72). -/
def bitCommand (b : Bool) : BitVec 12 := if b then 0x301#12 else 0x300#12

/-- The address byte `d` is the block's (R102). -/
def addressed (s : State) (d : Byte) : Bool := d.toNat / 2 == s.e.addr.toNat

/-- The address byte `d` asks for a read (R63). -/
def asksRead (d : Byte) : Bool := d.toNat % 2 == 1

/-- A read with no index held that the policy lets start at 0 (R103). -/
def startsAtZero (s : State) (d : Byte) : Bool :=
  addressed s d && asksRead d && !s.e.haveIndex && s.p.readWithoutIndex

/-- The acknowledge bit the block drives on the address byte `d` (R103): 1 on a mismatch, and on a read with no index
that the policy refuses. -/
def addressBit (s : State) (d : Byte) : Bool :=
  !addressed s d || (asksRead d && !s.e.haveIndex && !s.p.readWithoutIndex)

/-- The endpoint after the address byte `d` (R102, R103). -/
def afterAddress (s : State) (d : Byte) : Endpoint :=
  { s.e with
    direction := asksRead d
    haveIndex := s.e.haveIndex || startsAtZero s d
    index := if startsAtZero s d then 0 else s.e.index
    state :=
      if addressBit s d then .nackDone
      else if asksRead d then .transmitByte
      else if s.e.haveIndex then .receiveByte
      else .receiveIndexByte }

/-- The endpoint after a data byte stored (R107, R108). -/
def afterStore (e : Endpoint) : Endpoint :=
  { e with haveIndex := false, busy := true, index := e.index + 1, state := .receiveByte }

/-- The endpoint after a region byte `b` sent (R109). -/
def afterDraw (e : Endpoint) (b : Byte) : Endpoint :=
  { e with index := e.index + 1, checksum := e.checksum ^^^ b, state := .ackSent }

/-- The event words the dispatch table of R99 has a row for, by resting state. -/
def expects : EState → Instr → Bool
  | _, .evStart => true
  | .addressReceived, .evDoneIn8 _ => true
  | .receiveIndexByte, .evDoneIn8 _ => true
  | .receiveIndexByte, .evDoneOut1 _ => true
  | .receiveByte, .evDoneIn8 _ => true
  | .receiveByte, .evDoneOut1 _ => true
  | .transmitByte, .evDoneOut1 _ => true
  | .ackSent, .evDoneIn1 _ => true
  | .ackSent, .evDoneOut8 _ => true
  | .nackDone, .evDoneOut1 _ => true
  | _, _ => false

/-- The instruction is an event word (R71). -/
def isEvent (i : Instr) : Prop := i.format = .evWord

/-- The state after a refused host command (R132). -/
def refusedWith (r : RefuseReason) (s : State) : State :=
  { s with refusalMark := true, out := { s.out with refusal := some r } }

/-- A host word of op `op` with a nonzero field that must be zero is refused (R74, R132). -/
def RefusesField (op : BitVec 4) (s : State) : Prop :=
  ∀ (x : BitVec 28) (rest : List Item), x ≠ 0 → s.script = .word .hcmdWord (op ++ x) :: rest →
    step s = .next (refusedWith .reservedField { s with script := rest, out := Out.empty })

/-- The region bytes a read from the current index draws in its first `n` bytes (R47, R67). -/
def drawn (s : State) (n : Nat) : List Byte :=
  (List.range (min n (s.h.rlen.toNat - s.e.index.toNat))).map
    (fun k => s.mem.read (regionAddr s.p s.h.rbase (s.e.index.toNat + k)))

/-- The checksum after the first `n` bytes of a read (R114). -/
def checksumAfter (s : State) (n : Nat) : Byte := (drawn s n).foldl (fun c b => c ^^^ b) s.e.checksum

/-- The byte number `n` of a read, counted from 0 (R47, R67): a region byte, then the checksum for ever. -/
def sentByte (s : State) (n : Nat) : Byte :=
  if s.e.index.toNat + n < s.h.rlen.toNat then s.mem.read (regionAddr s.p s.h.rbase (s.e.index.toNat + n))
  else checksumAfter s n

/-- The engine's events for `n` further bytes that the master acknowledges: the byte is out, the ACK is in. -/
def acknowledged : Nat → List Instr
  | 0 => []
  | n + 1 => .evDoneOut8 0 :: .evDoneIn1 false :: acknowledged n

/-- The engine's events for data bytes: the byte is in, the engine's acknowledge bit is out. -/
def dataBytes : List Byte → List Instr
  | [] => []
  | v :: vs => .evDoneIn8 v :: .evDoneOut1 false :: dataBytes vs

/-- A byte register once the line values have been shifted into it, the first one first (R86). -/
def shiftedIn (sr : Byte) (line : List Bool) : Byte :=
  line.foldl (fun r v => r.extractLsb' 0 7 ++ BitVec.ofBool v) sr

/-- The data byte `d` that the step from `s` to `t` hands to the engine: that of the event word it runs, or the byte
of the pending DONE, or the byte that the clocks of the step complete in the armed transfer. -/
def Received (s t : State) (d : Byte) : Prop :=
  (∃ w rest, s.script = .word .evWord w :: rest ∧ decode .evWord w = .ok (.evDoneIn8 d)) ∨
  (s.t.startF = false ∧ s.t.doneF = true ∧ s.t.doneKind = .inp ∧ s.t.doneN = .eight ∧ s.t.doneData = d) ∨
  (Quiet s.t ∧ s.t.kind = some .inp ∧ s.t.n = .eight ∧ shiftedIn s.t.sr (t.out.line.take s.t.cnt.toNat) = d)

/-- The next item lets the host write `Mem` or `C.shadow` itself: a host store, the commit consumer, or power-on. -/
def hostWrites : List Item → Bool
  | .store _ _ :: _ | .tick :: _ | .powerOn _ _ :: _ => true
  | _ => false

/-- The next item is a power-on reset. -/
def powersOn : List Item → Bool
  | .powerOn _ _ :: _ => true
  | _ => false

end Sys2Proof.Claims

open Sys2Proof Sys2Proof.Machine Sys2Proof.Safety Sys2Proof.Claims

/-! ### Encoding -/

/-- R71, R72, R74, R62: words the spec writes out decode to the instructions they stand for. -/
def Obligations.SpelledWordsDecode : Prop :=
  decode .evWord 0x201#32 = .ok (.evDoneIn1 true) ∧
  decode .evWord 0x380#32 = .ok (.evDoneIn8 0x80#8) ∧
  decode .tcmdWord 0x301#32 = .ok (.tOut1 true) ∧
  decode .tcmdWord 0x433#32 = .ok (.tOut8 0x33#8) ∧
  decode .hcmdWord 0x10040100#32 = .ok (.regw false 0x04#8 0x0100#16) ∧
  decode .hcmdWord 0x18FF1234#32 = .ok (.regw true 0xFF#8 0x1234#16) ∧
  decode .wireAddr 0x81#32 = .ok (.addr 0x40#7 true) ∧
  decode .busSym 0b10#32 = .ok .start

/-- Decoding what an instruction encodes to gives the instruction, with every operand at every value. -/
def Obligations.DecodeOfEncodeIsTheInstruction : Prop := ∀ i : Instr, decode i.format (encode i) = .ok i

/-- A word that decodes is the encoding of what it decodes to, in its format: decoding drops no bit. -/
def Obligations.EncodeOfDecodeIsTheWord : Prop :=
  ∀ (f : Format) (w : Word) (i : Instr), decode f w = .ok i → i.format = f ∧ encode i = w

/-- R77 with R71, R72 and R74: which words are rejected as reserved, and by which name. -/
def Obligations.ReservedWordsAreRejectedByName : Prop :=
  (∀ k d, (k.toNat = 0 ∨ 6 ≤ k.toNat) → decode .evWord (wordOf12 k d) = .error (.reservedEvent (k ++ d))) ∧
  (∀ k d, 5 ≤ k.toNat → decode .tcmdWord (wordOf12 k d) = .error (.reservedCommand (k ++ d))) ∧
  (∀ (op : BitVec 4) (x : BitVec 28), 6 ≤ op.toNat → decode .hcmdWord (op ++ x) = .error .reservedOp) ∧
  (∀ (op : BitVec 4) (x : BitVec 28), op = 0 ∨ op = 3 ∨ op = 4 ∨ op = 5 → x ≠ 0 →
    decode .hcmdWord (op ++ x) = .error .reservedField) ∧
  (∀ (op : BitVec 4) (null : Bool) (z : BitVec 3) (len : Byte) (base : Addr), op = 1 ∨ op = 2 → z ≠ 0 →
    decode .hcmdWord (op ++ BitVec.ofBool null ++ z ++ len ++ base) = .error .reservedField)

/-! ### The step -/

/-- A step runs the decoded instruction: off the script, the output record fresh. -/
def Obligations.StepRunsTheDecodedInstruction : Prop :=
  ∀ (s : State) (f : Format) (w : Word) (rest : List Item) (i : Instr),
    s.script = .word f w :: rest → decode f w = .ok i → (f.isBus = false ∨ engineEnabled s = false) →
    step s = exec i { s with script := rest, out := Out.empty }

/-- R94, R95 and log entry 2: while a flag is pending on a live engine, the step before any bus word, and at the end of
the script, is the engine's step on the event word the flag stands for, and the script stays. -/
def Obligations.PendingEventRunsBeforeTheNextSymbol : Prop :=
  ∀ s : State, s.script = [] ∨ (∃ f w rest, s.script = .word f w :: rest ∧ f.isBus = true) → Live s →
    (s.t.startF = true → step s = exec .evStart { s with out := Out.empty }) ∧
    (s.t.startF = false → s.t.doneF = true →
      (s.t.doneKind = .inp → s.t.doneN = .eight →
        step s = exec (.evDoneIn8 s.t.doneData) { s with out := Out.empty }) ∧
      (s.t.doneKind = .out → s.t.doneN = .eight →
        step s = exec (.evDoneOut8 s.t.doneData) { s with out := Out.empty }) ∧
      (∀ b : Bool, s.t.doneData = (if b then 1 else 0) → s.t.doneN = .one →
        (s.t.doneKind = .inp → step s = exec (.evDoneIn1 b) { s with out := Out.empty }) ∧
        (s.t.doneKind = .out → step s = exec (.evDoneOut1 b) { s with out := Out.empty })))

/-- R94, R95 and log entry 2: at a serve input the pending event of a live engine runs, so that it goes before the host
step that follows; without a pending event, unarmed or faulted, nothing happens. -/
def Obligations.ServeTakesThePendingEvent : Prop :=
  ∀ (s : State) (rest : List Item), s.script = .serve :: rest →
    let u : State := { s with script := rest, out := Out.empty }
    (Live s → s.t.startF = true → step s = exec .evStart u) ∧
    (Live s → s.t.startF = false → s.t.doneF = true → s.t.doneKind = .inp → s.t.doneN = .eight →
      step s = exec (.evDoneIn8 s.t.doneData) u) ∧
    (Live s → s.t.startF = false → s.t.doneF = true → s.t.doneKind = .out → s.t.doneN = .eight →
      step s = exec (.evDoneOut8 s.t.doneData) u) ∧
    (∀ b : Bool, Live s → s.t.startF = false → s.t.doneF = true → s.t.doneN = .one →
      s.t.doneData = (if b then 1 else 0) →
      (s.t.doneKind = .inp → step s = exec (.evDoneIn1 b) u) ∧
      (s.t.doneKind = .out → step s = exec (.evDoneOut1 b) u)) ∧
    (¬ Live s ∨ Quiet s.t → step s = .next u)

/-- R142, R151: with no input to come, and no flag pending or no engine to service it (unarmed or faulted: R94, R131),
nothing changes; the output record is the model's own. The pending flag of a live engine is
`PendingEventRunsBeforeTheNextSymbol`. -/
def Obligations.NothingHappensWithoutInput : Prop :=
  ∀ s : State, s.script = [] → ¬ Live s ∨ Quiet s.t → step s = .next { s with out := Out.empty }

/-! ### Reset -/

/-- R36, R147: what a power-on reset leaves in every field, whatever `Mem` and `C.shadow` then hold; the engine is
disabled until ARM. -/
def Obligations.PowerOnValues : Prop :=
  ∀ (p : Params) (a : BitVec 7) (m : Memory) (sh : List Byte) (sc : List Item),
    let s := State.powerOn p a m sh sc
    s.e = { addr := a, state := .idle, direction := false, haveIndex := false, index := 0, busy := false
            checksum := p.checksumSeed } ∧
    s.h = { wbase := 0, wlen := 0, rbase := 0, rlen := 0, armed := false } ∧
    s.t = { kind := none, n := .eight, cnt := 0, out := 0xFF#8, sr := 0x00#8, drive := true, startF := false
            stopF := false, doneF := false, doneKind := .out, doneN := .one, doneData := 0x00#8 } ∧
    s.fault = none ∧ s.refusalMark = false ∧ s.mem = m ∧ s.shadow = sh ∧ engineEnabled s = false

/-- R147 as an input (log entry 25): the step is the power-on reset of the same build, with the memory cells and shadow
the input carries; the rest of the script stays. -/
def Obligations.PowerOnInputResetsTheBlock : Prop :=
  ∀ (s : State) (cells : List (Addr × Byte)) (sh : List Byte) (rest : List Item),
    s.script = .powerOn cells sh :: rest → (∀ c ∈ cells, c.1.toNat < 2 ^ s.p.addrWidth) →
    ∃ m, step s = .next (State.powerOn s.p s.e.addr m sh rest) ∧ m.wf ∧
      ∀ a : Nat, m.read a = (match cells.find? (fun c => c.1.toNat == a) with
        | some c => c.2
        | none => Memory.unlisted)

/-- The reset state is the power-on of the build of R8, nothing listed in memory, the shadow and script empty (log
entries 4 to 7), and has the invariant. -/
def Obligations.ResetIsThePowerOnOfTheBuild : Prop :=
  State.reset = State.powerOn Config.build Config.slaveAddr [] [] [] ∧ State.reset.e.checksum = 0xAA#8 ∧ Inv State.reset

/-! ### The bus -/

/-- R82: a bus symbol to an unarmed block changes nothing in it, and the line is what the master drives. That a wire
frame does the same is the model's choice of a frame as its clocks (log entry 13, DESIGN CHOICE). -/
def Obligations.UnarmedBlockIsInvisibleOnTheBus : Prop :=
  ∀ (s : State) (i : Instr), s.h.armed = false → i.format.isBus = true →
    exec i s = .next { s with out := { s.out with line := s.out.line ++ lineBits i } } ∧ engineEnabled s = false

/-- R83. -/
def Obligations.StartConditionRaisesStartFlag : Prop :=
  ∀ s : State, s.h.armed = true → Quiet s.t → s.t.drive = true →
    let t : State := { s with t := { s.t with startF := true, kind := none, cnt := 0, drive := true } }
    exec .start s = .next t ∧
    (s.fault = none → engineEnabled t = true ∧ pendingKind t.t = .start) ∧
    (∀ i : Instr, i.format = .busSym → exec i t = .refused .flagPending)

/-- R84. -/
def Obligations.StopConditionLatchesAndParks : Prop :=
  ∀ s : State, s.h.armed = true → Quiet s.t → s.t.drive = true →
    let t : State := { s with t := { s.t with stopF := true, kind := none, cnt := 0, drive := true } }
    exec .stop s = .next t ∧ engineEnabled t = false

/-- R87, R88, R100 with nothing armed: a clock leaves the block as it is, and the line is what the master drives. That
a wire frame does the same is the model's choice of a frame as its clocks (log entry 13, DESIGN CHOICE). -/
def Obligations.ClocksWithNothingArmedAreIgnored : Prop :=
  ∀ (s : State) (i : Instr), s.h.armed = true → Quiet s.t → s.t.kind = none → i.format.isBus = true →
    i ≠ .start → i ≠ .stop →
    exec i s = .next { s with out := { s.out with line := s.out.line ++ lineBits i } }

/-- R86, R87, R88: with nothing armed a clock changes nothing; otherwise the line value is shifted in, and either an
OUT transfer drives its next bit, or, at the last bit, DONE is raised and the line released. -/
def Obligations.ClockCarriesOutShift : Prop :=
  ∀ (s : State) (m : Bool), s.h.armed = true → Quiet s.t →
    (s.t.kind = none → exec (clockOf m) s = .next { s with out := { s.out with line := s.out.line ++ [m] } }) ∧
    (∀ dir, s.t.kind = some dir →
      let v := m && s.t.drive
      let sr : Byte := s.t.sr.extractLsb' 0 7 ++ BitVec.ofBool v
      let o : Out := { s.out with line := s.out.line ++ [v] }
      (s.t.cnt ≠ 1 → exec (clockOf m) s = .next { s with
        t := { s.t with
          sr := sr, cnt := s.t.cnt - 1
          drive := if dir = .out then s.t.out.getLsbD ((s.t.cnt - 1).toNat - 1) else s.t.drive }
        out := o }) ∧
      (s.t.cnt = 1 →
        let t : State := { s with
          t := { s.t with
            sr := sr, cnt := 0, kind := none, drive := true, doneF := true, doneKind := dir, doneN := s.t.n
            doneData := if s.t.n = .eight then sr else if v then 1 else 0 }
          out := o }
        exec (clockOf m) s = .next t ∧
        (s.fault = none → engineEnabled t = true ∧ pendingKind t.t = doneEvent dir s.t.n)))

/-- R85 and log entry 33: a samples input puts the symbols of its samples ahead of the rest of the script and changes
nothing else; the samples of the two wires over any bus symbols, from an idle bus, give exactly those symbols. -/
def Obligations.SamplesGiveTheSymbols : Prop :=
  (∀ (s : State) (before : Bool × Bool) (samples : List (Bool × Bool)) (rest : List Item),
    s.script = .samples before samples :: rest →
    step s = .next { s with
      script := (symbolsOfSamples before none samples).map (fun i => .word i.format (encode i)) ++ rest
      out := Out.empty }) ∧
  (∀ is : List Instr, (∀ i ∈ is, i.format = .busSym) →
    symbolsOfSamples (true, true) none (is.flatMap waveOf) = is ∧
    ∀ (s : State) (rest : List Item), s.script = .samples (true, true) (is.flatMap waveOf) :: rest →
      step s = .next { s with
        script := is.map (fun i => .word i.format (encode i)) ++ rest
        out := Out.empty })

/-- R81 (a), (b): the moves the master does not have. -/
def Obligations.MasterHasNoMoveAgainstItsDuties : Prop :=
  ∀ (s : State) (i : Instr), s.h.armed = true → i.format = .busSym →
    (flagged s.t = true → exec i s = .refused .flagPending) ∧
    (Quiet s.t → s.t.drive = false → i = .start ∨ i = .stop → exec i s = .refused .lineHeldLow)

/-! ### Transport commands -/

/-- R89: the transfer is cancelled, the line released, the flags stay, and until the next START clocks shift nothing. -/
def Obligations.DisarmCancelsTheTransfer : Prop :=
  ∀ s : State,
    let t : State := { s with t := { s.t with kind := none, cnt := 0, drive := true } }
    exec .tDisarm s = .next t ∧
    (s.h.armed = true → Quiet s.t → ∀ m, exec (clockOf m) t = .next { t with out := { t.out with line := t.out.line ++ [m] } })

/-- R90: one bit is armed in; the next clock samples the master's bit and raises DONE with it. -/
def Obligations.BitInSamplesTheMaster : Prop :=
  ∀ s : State,
    let t : State := { s with t := { s.t with kind := some .inp, n := .one, cnt := 1, drive := true } }
    exec .tIn1 s = .next t ∧
    (s.h.armed = true → Quiet s.t → ∀ m, ∃ u, exec (clockOf m) t = .next u ∧
      u.t.doneF = true ∧ u.t.doneKind = .inp ∧ u.t.doneN = .one ∧ u.t.doneData = (if m then 1 else 0) ∧
      u.t.kind = none ∧ u.t.drive = true ∧ u.out.line = s.out.line ++ [m])

/-- R91, R61: a byte is armed in; eight clocks deliver it, the first bit in bit 7, and raise DONE. -/
def Obligations.EightClocksDeliverTheByte : Prop :=
  ∀ s : State,
    exec .tIn8 s = .next { s with t := { s.t with kind := some .inp, n := .eight, cnt := 8, drive := true } } ∧
    (s.h.armed = true → Quiet s.t → ∀ v : Byte,
      ∃ t, execAll (.tIn8 :: (byteBits v).map clockOf) s = .next t ∧
        t.t.doneF = true ∧ t.t.doneKind = .inp ∧ t.t.doneN = .eight ∧ t.t.doneData = v ∧
        t.t.kind = none ∧ t.t.drive = true ∧ t.out.line = s.out.line ++ byteBits v ∧
        t.e = s.e ∧ t.h = s.h ∧ t.mem = s.mem)

/-- R92, R80: one bit is armed out; on the next clock the block drives it, and DONE is raised with the line value. -/
def Obligations.BitOutDrivesTheLine : Prop :=
  ∀ (s : State) (b : Bool),
    let t : State := { s with
      t := { s.t with kind := some .out, n := .one, cnt := 1, out := if b then 1 else 0, drive := b } }
    exec (.tOut1 b) s = .next t ∧
    (s.h.armed = true → Quiet s.t → ∀ m, ∃ u, exec (clockOf m) t = .next u ∧
      u.t.doneF = true ∧ u.t.doneKind = .out ∧ u.t.doneN = .one ∧ u.t.doneData = (if m && b then 1 else 0) ∧
      u.t.kind = none ∧ u.t.drive = true ∧ u.out.line = s.out.line ++ [m && b])

/-- R93, R61: a byte is armed out; eight clocks of a master that releases the line read `v[7]` down to `v[0]`, and DONE
is raised. -/
def Obligations.EightReleasedClocksReadTheByte : Prop :=
  ∀ (s : State) (v : Byte),
    exec (.tOut8 v) s = .next { s with
      t := { s.t with kind := some .out, n := .eight, cnt := 8, out := v, drive := v.getLsbD 7 } } ∧
    (s.h.armed = true → Quiet s.t →
      ∃ t, execAll (.tOut8 v :: List.replicate 8 .clk1) s = .next t ∧
        t.out.line = s.out.line ++ byteBits v ∧ t.t.doneF = true ∧ t.t.doneKind = .out ∧ t.t.doneN = .eight ∧
        t.t.kind = none ∧ t.t.drive = true ∧ t.e = s.e ∧ t.h = s.h ∧ t.mem = s.mem)

/-! ### The engine -/

/-- R101. -/
def Obligations.StartEventOpensTheAddressPhase : Prop :=
  ∀ s : State, Live s → s.e.state.isResting = true →
    exec .evStart s = .next { s with
      e := { (if s.t.stopF then resetEndpoint s.p s.e else s.e) with state := .addressReceived }
      t := { s.t with
        stopF := false, startF := false, kind := some .inp, n := .eight, cnt := 8, drive := true }
      out := engineOut s.out (if s.t.stopF then [0x000#12, 0x200#12] else [0x200#12]) 0b00#2 }

/-- R102, R103. -/
def Obligations.AddressByteIsMatchedAndAnswered : Prop :=
  ∀ (s : State) (d : Byte), Live s → s.e.state = .addressReceived →
    exec (.evDoneIn8 d) s = .next { s with
      e := afterAddress s d
      t := drivesBit s.t (addressBit s d)
      out := engineOut s.out [bitCommand (addressBit s d)] 0b00#2 }

/-- R105, R106. -/
def Obligations.IndexByteIsLoadedAndAcknowledged : Prop :=
  ∀ (s : State) (d : Byte), Live s → s.e.state = .receiveIndexByte →
    exec (.evDoneIn8 d) s = .next { s with
      e := { s.e with index := d, haveIndex := true, state := .receiveByte }
      t := drivesBit s.t false
      out := engineOut s.out [0x300#12] 0b00#2 }

/-- R107, R108, R42: a data byte inside the writable region is stored and acknowledged; one past it is refused with
nothing stored. -/
def Obligations.DataByteIsStoredOrRefused : Prop :=
  ∀ (s : State) (d : Byte), Live s → s.e.state = .receiveByte →
    (s.e.index.toNat < s.h.wlen.toNat →
      exec (.evDoneIn8 d) s = .next { s with
        e := afterStore s.e
        t := drivesBit s.t false
        mem := s.mem.write (waddr s) d
        out := engineOut s.out [0x300#12] 0b01#2 }) ∧
    (s.h.wlen.toNat ≤ s.e.index.toNat →
      exec (.evDoneIn8 d) s = .next { s with
        e := { s.e with haveIndex := false, state := .nackDone }
        t := drivesBit s.t true
        out := engineOut s.out [0x301#12] 0b00#2 })

/-- R39, R40, R51: the one byte of memory an event word may change, and the reading of it. -/
def Obligations.EventWordsStoreOnlyTheDataByte : Prop :=
  ∀ (s : State) (i : Instr), isEvent i → s.mem.wf →
    ∃ t, exec i s = .next t ∧
      ((∃ d, i = .evDoneIn8 d ∧ Live s ∧ s.e.state = .receiveByte ∧ s.e.index.toNat < s.h.wlen.toNat ∧
          t.mem.read (waddr s) = d ∧ ∀ a, a ≠ waddr s → t.mem.read a = s.mem.read a) ∨
        ∀ a, t.mem.read a = s.mem.read a)

/-- R104, R110: the half-steps that arm the next byte, and the master's acknowledge. -/
def Obligations.HalfStepsArmTheNextTransfer : Prop :=
  (∀ (s : State) (b : Bool), Live s → s.e.state = .receiveIndexByte ∨ s.e.state = .receiveByte →
    exec (.evDoneOut1 b) s = .next { s with t := awaitsByte s.t, out := engineOut s.out [0x200#12] 0b00#2 }) ∧
  (∀ (s : State) (d : Byte), Live s → s.e.state = .ackSent →
    exec (.evDoneOut8 d) s = .next { s with t := awaitsBit s.t, out := engineOut s.out [0x100#12] 0b00#2 })

/-- R109, R111, R67: the first byte after the address ACK is sent whatever was sampled; after the master's ACK the next
region byte is drawn, or the checksum sent unchanged; after its NACK the endpoint is reset. -/
def Obligations.ReadBytesAreDrawnOrTheChecksumRepeats : Prop :=
  ∀ s : State, Live s →
    let b := s.mem.read (raddr s)
    (s.e.state = .transmitByte → ∀ x : Bool,
      (s.e.index.toNat < s.h.rlen.toNat →
        exec (.evDoneOut1 x) s = .next { s with
          e := afterDraw s.e b
          t := drivesByte s.t b
          out := engineOut s.out [0x4#4 ++ b] 0b10#2 }) ∧
      (s.h.rlen.toNat ≤ s.e.index.toNat →
        exec (.evDoneOut1 x) s = .next { s with
          e := { s.e with state := .ackSent }
          t := drivesByte s.t s.e.checksum
          out := engineOut s.out [0x4#4 ++ s.e.checksum] 0b10#2 })) ∧
    (s.e.state = .ackSent →
      (s.e.index.toNat < s.h.rlen.toNat →
        exec (.evDoneIn1 false) s = .next { s with
          e := { afterDraw s.e b with haveIndex := false }
          t := drivesByte s.t b
          out := engineOut s.out [0x4#4 ++ b] 0b10#2 }) ∧
      (s.h.rlen.toNat ≤ s.e.index.toNat →
        exec (.evDoneIn1 false) s = .next { s with
          e := { s.e with haveIndex := false }
          t := drivesByte s.t s.e.checksum
          out := engineOut s.out [0x4#4 ++ s.e.checksum] 0b10#2 }) ∧
      exec (.evDoneIn1 true) s = .next { s with
        e := { resetEndpoint s.p s.e with haveIndex := false }
        t := released s.t
        out := engineOut s.out [0x000#12] 0b00#2 })

/-- R112, R148: after the engine's own NACK clock the endpoint is reset. -/
def Obligations.NackDoneResetsTheEndpoint : Prop :=
  ∀ (s : State) (b : Bool), Live s → s.e.state = .nackDone →
    exec (.evDoneOut1 b) s = .next { s with
      e := resetEndpoint s.p s.e
      t := released s.t
      out := engineOut s.out [0x000#12] 0b00#2 }

/-- R99, R131: an event its resting state does not expect, and any event in a transient or reserved state. -/
def Obligations.UnexpectedEventsAndBadStatesFault : Prop :=
  ∀ (s : State) (i : Instr), Live s → isEvent i →
    let record := fun (r : FaultReason) =>
      ({ s with
        fault := some { reason := r, state := s.e.state.code, ev := (encode i).extractLsb' 0 12 }
        out := engineOut s.out [] 0b00#2 } : State)
    (s.e.state.isResting = true → expects s.e.state i = false → exec i s = .next (record .unexpectedEvent)) ∧
    (s.e.state.isResting = false → exec i s = .next (record .badState))

/-- R99, R131, R137: reserved kinds and commands; BAD_STATE goes before BAD_EVENT; only the first fault is recorded. -/
def Obligations.ReservedInterfaceWordsFault : Prop :=
  ∀ (s : State) (k : BitVec 4) (d : Byte) (rest : List Item),
    let u : State := { s with script := rest, out := Out.empty }
    let record := fun (r : FaultReason) =>
      (some { reason := r, state := s.e.state.code, ev := k ++ d } : Option FaultRec)
    ((k.toNat = 0 ∨ 6 ≤ k.toNat) → s.script = .word .evWord (wordOf12 k d) :: rest → Live s →
      step s = .next { u with
        fault := if s.e.state.isResting then record .badEvent else record .badState
        out := engineOut Out.empty [] 0b00#2 }) ∧
    (5 ≤ k.toNat → s.script = .word .tcmdWord (wordOf12 k d) :: rest →
      step s = .next { u with fault := s.fault.or (record .badTcmd) })

/-- Log entry 18 (DEDUCED from R99, R14): a word of an unreserved event kind or command goes by its kind or command
whatever data bits its row does not list, a 1-bit operand being bit 0, and a fault records the word as it stands; a word
wider than its format (R60) stops as malformedWord. -/
def Obligations.UnlistedDataBitsAreIgnored : Prop :=
  ∀ (s : State) (d : Byte) (rest : List Item),
    let u : State := { s with script := rest, out := Out.empty }
    let record := fun (r : FaultReason) (k : BitVec 4) =>
      ({ u with
        fault := some { reason := r, state := s.e.state.code, ev := k ++ d }
        out := engineOut Out.empty [] 0b00#2 } : State)
    let goesBy := fun (k : BitVec 4) (i : Instr) =>
      s.script = .word .evWord (wordOf12 k d) :: rest →
        (¬ Live s → step s = .next u) ∧
        (Live s → s.e.state.isResting = true → expects s.e.state i = true → step s = exec i u) ∧
        (Live s → s.e.state.isResting = true → expects s.e.state i = false →
          step s = .next (record .unexpectedEvent k)) ∧
        (Live s → s.e.state.isResting = false → step s = .next (record .badState k))
    let does := fun (k : BitVec 4) (i : Instr) =>
      s.script = .word .tcmdWord (wordOf12 k d) :: rest → step s = exec i u
    (goesBy 1 .evStart ∧ goesBy 2 (.evDoneIn1 (d.getLsbD 0)) ∧ goesBy 4 (.evDoneOut1 (d.getLsbD 0))) ∧
    (does 0 .tDisarm ∧ does 1 .tIn1 ∧ does 2 .tIn8 ∧ does 3 (.tOut1 (d.getLsbD 0))) ∧
    (∀ (f : Format) (w : Word), s.script = .word f w :: rest → f.fits w = false →
      (f.isBus = false ∨ engineEnabled s = false) → step s = .refused .malformedWord)

/-- R30, R131: unarmed or faulted, the engine takes no step. -/
def Obligations.StoppedEngineTakesNoStep : Prop :=
  ∀ (s : State) (i : Instr), isEvent i → s.h.armed = false ∨ s.fault ≠ none → exec i s = .next s

/-! ### Wire frames -/

/-- R102, R103 through the wire: the address frame. -/
def Obligations.AddressFrameIsAnswered : Prop :=
  ∀ (s : State) (a : BitVec 7) (d : Bool), Live s → s.e.state = .addressReceived → ByteIn s.t →
    let v : Byte := a ++ BitVec.ofBool d
    exec (.addr a d) s = .next { s with
      e := afterAddress s v
      t := drivesBit (gotByte s.t v) (addressBit s v)
      out := engineOut { s.out with line := s.out.line ++ byteBits v } [bitCommand (addressBit s v)] 0b00#2 }

/-- R105, R106 through the wire: the index frame. -/
def Obligations.IndexFrameIsLoaded : Prop :=
  ∀ (s : State) (i : Byte), Live s → s.e.state = .receiveIndexByte → ByteIn s.t →
    exec (.index i) s = .next { s with
      e := { s.e with index := i, haveIndex := true, state := .receiveByte }
      t := drivesBit (gotByte s.t i) false
      out := engineOut { s.out with line := s.out.line ++ byteBits i } [0x300#12] 0b00#2 }

/-- R107, R108 through the wire: the data frame, stored or refused. -/
def Obligations.DataFrameIsStoredOrRefused : Prop :=
  ∀ (s : State) (v : Byte), Live s → s.e.state = .receiveByte → ByteIn s.t →
    let o : Out := { s.out with line := s.out.line ++ byteBits v }
    (s.e.index.toNat < s.h.wlen.toNat →
      exec (.dataW v) s = .next { s with
        e := afterStore s.e
        t := drivesBit (gotByte s.t v) false
        mem := s.mem.write (waddr s) v
        out := engineOut o [0x300#12] 0b01#2 }) ∧
    (s.h.wlen.toNat ≤ s.e.index.toNat →
      exec (.dataW v) s = .next { s with
        e := { s.e with haveIndex := false, state := .nackDone }
        t := drivesBit (gotByte s.t v) true
        out := engineOut o [0x301#12] 0b00#2 })

/-- R80, R93, R110: the frame of a byte the slave sends carries it, ANDed with what the master drives, and the
master's acknowledge is armed. -/
def Obligations.ReadFrameCarriesTheArmedByte : Prop :=
  ∀ (s : State) (v b : Byte), Live s → s.e.state = .ackSent → ByteOut b s.t →
    let w := v &&& b
    exec (.dataR v) s = .next { s with
      t := awaitsBit { s.t with sr := w, doneKind := .out, doneN := .eight, doneData := w }
      out := engineOut { s.out with line := s.out.line ++ byteBits w } [0x100#12] 0b00#2 } ∧
    (v = b ∨ v = 0xFF#8 → w = b)

/-- R64 with R111: the master's ACK frame asks for the next byte, its NACK frame ends the read. That a frame is its
clock with the engine served after it is the model's choice (log entry 13, DESIGN CHOICE). -/
def Obligations.MasterAcknowledgeFrames : Prop :=
  ∀ s : State, Live s → s.e.state = .ackSent → BitIn s.t →
    let got := fun (bit : Bool) =>
      ({ s.t with
        sr := s.t.sr.extractLsb' 0 7 ++ BitVec.ofBool bit
        doneKind := .inp, doneN := .one, doneData := if bit then 1 else 0 } : Transport)
    let o := fun (bit : Bool) => ({ s.out with line := s.out.line ++ [bit] } : Out)
    let b := s.mem.read (raddr s)
    (s.e.index.toNat < s.h.rlen.toNat →
      exec .ack s = .next { s with
        e := { afterDraw s.e b with haveIndex := false }
        t := drivesByte (got false) b
        out := engineOut (o false) [0x4#4 ++ b] 0b10#2 }) ∧
    (s.h.rlen.toNat ≤ s.e.index.toNat →
      exec .ack s = .next { s with
        e := { s.e with haveIndex := false }
        t := drivesByte (got false) s.e.checksum
        out := engineOut (o false) [0x4#4 ++ s.e.checksum] 0b10#2 }) ∧
    exec .nack s = .next { s with
      e := { resetEndpoint s.p s.e with haveIndex := false }
      t := released (got true)
      out := engineOut (o true) [0x000#12] 0b00#2 }

/-- R64 with R80, R104, R109, R112: on the slave's acknowledge clock the line carries 0 whenever either side drives 0;
after an ACK the next byte is armed in or, in a read, the first byte is sent; after a NACK the endpoint is reset. That a
frame is its clock with the engine served after it is the model's choice (log entry 13, DESIGN CHOICE). -/
def Obligations.SlaveAcknowledgeFrames : Prop :=
  ∀ (s : State) (bit drive : Bool), Live s → BitOut drive s.t →
    let v := bit && drive
    let sent : Transport :=
      { s.t with
        sr := s.t.sr.extractLsb' 0 7 ++ BitVec.ofBool v
        doneKind := .out, doneN := .one, doneData := if v then 1 else 0 }
    let o : Out := { s.out with line := s.out.line ++ [v] }
    let b := s.mem.read (raddr s)
    (s.e.state = .receiveIndexByte ∨ s.e.state = .receiveByte →
      exec (ackOf bit) s = .next { s with t := awaitsByte sent, out := engineOut o [0x200#12] 0b00#2 }) ∧
    (s.e.state = .transmitByte →
      (s.e.index.toNat < s.h.rlen.toNat →
        exec (ackOf bit) s = .next { s with
          e := afterDraw s.e b, t := drivesByte sent b, out := engineOut o [0x4#4 ++ b] 0b10#2 }) ∧
      (s.h.rlen.toNat ≤ s.e.index.toNat →
        exec (ackOf bit) s = .next { s with
          e := { s.e with state := .ackSent }
          t := drivesByte sent s.e.checksum
          out := engineOut o [0x4#4 ++ s.e.checksum] 0b10#2 })) ∧
    (s.e.state = .nackDone →
      exec (ackOf bit) s = .next { s with
        e := resetEndpoint s.p s.e, t := released sent, out := engineOut o [0x000#12] 0b00#2 })

/-! ### Host commands and host steps -/

/-- R120, R121, R132: a registration writes its descriptor and nothing else, a null one 0 and 0; or it is refused by
the lowest code that applies, and the refusal mark is set and nothing else. A call longer than 255 to which no other
reason applies is refused LENGTH; one to which another applies too is `RegistrationCallsRunTheCommands`. -/
def Obligations.RegistrationFollowsItsRule : Prop :=
  ∀ (s : State) (null : Bool) (len : Byte) (base : Addr),
    let b : Addr := if null then 0 else base
    let l : Byte := if null then 0 else len
    let tooHigh := 2 ^ s.p.addrWidth ≤ b.toNat
    let tooLong := 2 ^ s.p.addrWidth < b.toNat + l.toNat
    let refusedBy := fun (r : RefuseReason) =>
      exec (.regw null len base) s = .next (refusedWith r s) ∧ exec (.regr null len base) s = .next (refusedWith r s)
    (tooHigh → refusedBy .badBase) ∧
    (¬ tooHigh → tooLong → refusedBy .regionRange) ∧
    (¬ tooHigh → ¬ tooLong → ¬ Free s → refusedBy .inFlight) ∧
    (¬ tooHigh → ¬ tooLong → Free s →
      exec (.regw null len base) s = .next { s with h := { s.h with wbase := b, wlen := l } } ∧
      exec (.regr null len base) s = .next { s with h := { s.h with rbase := b, rlen := l } }) ∧
    (∀ (op : BitVec 4) (z : BitVec 3) (rest : List Item), op = 1 ∨ op = 2 → z ≠ 0 →
      s.script = .word .hcmdWord (op ++ BitVec.ofBool null ++ z ++ len ++ base) :: rest →
      step s = .next (refusedWith .reservedField { s with script := rest, out := Out.empty })) ∧
    (∀ (writable : Bool) (n : Nat) (rest : List Item), 255 < n → s.script = .register writable (some base) n :: rest →
      base.toNat < 2 ^ s.p.addrWidth → base.toNat + n ≤ 2 ^ s.p.addrWidth → Free s →
      step s = .next (refusedWith .length { s with script := rest, out := Out.empty }))

/-- The source-level registration calls of R74 as host steps: they run REGW and REGR, a call with no buffer the null
ones; a call longer than 255 is refused LENGTH whatever other reason applies to it, which is the model's choice (log
entry 37, DESIGN CHOICE). -/
def Obligations.RegistrationCallsRunTheCommands : Prop :=
  ∀ (s : State) (writable : Bool) (rest : List Item),
    let u : State := { s with script := rest, out := Out.empty }
    let command := fun (null : Bool) (len : Byte) (base : Addr) =>
      if writable then Instr.regw null len base else .regr null len base
    (∀ n, s.script = .register writable none n :: rest → step s = exec (command true 0 0) u) ∧
    (∀ base n, n ≤ 255 → s.script = .register writable (some base) n :: rest →
      step s = exec (command false (BitVec.ofNat 8 n) base) u) ∧
    (∀ base n, 255 < n → s.script = .register writable (some base) n :: rest → step s = .next (refusedWith .length u))

/-- R74, R77, R132: a host word of a reserved op is refused whatever its other bits, and sets the refusal mark alone. -/
def Obligations.ReservedOpsAreRefused : Prop :=
  ∀ (s : State) (op : BitVec 4) (x : BitVec 28) (rest : List Item), 6 ≤ op.toNat →
    s.script = .word .hcmdWord (op ++ x) :: rest →
    step s = .next (refusedWith .reservedOp { s with script := rest, out := Out.empty })

/-- R119, R122: NOP changes nothing; ARM sets `H.armed` and nothing else, and does nothing to an armed block; either
with a nonzero reserved field is refused. -/
def Obligations.NopChangesNothingAndArmOnlyArms : Prop :=
  ∀ s : State, exec .nop s = .next s ∧ RefusesField 0 s ∧
    exec .arm s = .next { s with h := { s.h with armed := true } } ∧ (s.h.armed = true → exec .arm s = .next s) ∧
    RefusesField 3 s

/-- R123. -/
def Obligations.BusyQueryAnswersAndHeals : Prop :=
  ∀ s : State,
    let parkedHere := s.p.healScope = .wide ∨ s.e.state = .receiveByte
    let respond := fun (busy : Bool) (w : Word) =>
      ({ s with e := { s.e with busy := busy }, out := { s.out with resp := some w } } : State)
    (s.e.busy = true → s.t.stopF = true → parkedHere → exec .qbusy s = .next (respond false 0)) ∧
    (s.e.busy = true → (s.t.stopF = false ∨ ¬ parkedHere) → exec .qbusy s = .next (respond true 1)) ∧
    (s.e.busy = false → exec .qbusy s = .next (respond false 0)) ∧
    RefusesField 4 s

/-- R75, R124: STATUS changes no state and answers with these fields; with a nonzero reserved field it is refused. -/
def Obligations.StatusWordHasItsFields : Prop :=
  ∀ s : State, RefusesField 5 s ∧ ∃ w : Word, exec .status s = .next { s with out := { s.out with resp := some w } } ∧
    w.extractLsb' 0 4 = s.e.state.code ∧ w.getLsbD 4 = s.e.direction ∧ w.getLsbD 5 = s.e.haveIndex ∧
    w.getLsbD 6 = s.e.busy ∧ w.getLsbD 7 = s.t.stopF ∧ w.extractLsb' 8 8 = s.e.index ∧
    w.extractLsb' 16 8 = s.e.checksum ∧ w.getLsbD 24 = s.h.armed ∧
    (w.extractLsb' 25 3).toNat =
      (if s.t.kind = none then 0
       else (if s.t.kind = some .inp then 0 else 2) + (if s.t.n = .one then 1 else 2)) ∧
    w.extractLsb' 28 4 = 0

/-- R128: one run of the commit consumer. -/
def Obligations.CommitTickAdoptsTheWholePayload : Prop :=
  ∀ (s : State) (rest : List Item), s.script = .tick :: rest →
    let healed := s.e.busy && s.t.stopF && (decide (s.p.healScope = .wide) || decide (s.e.state = .receiveByte))
    let u : State := { s with
      e := { s.e with busy := s.e.busy && !healed }, script := rest, out := Out.empty }
    let control := s.mem.read (regionAddr s.p s.h.wbase 0)
    let commit := (s.e.busy = false ∨ healed = true) ∧ 1 ≤ s.h.wlen.toNat ∧ control &&& s.p.commitMask = s.p.commitMagic
    (commit → step s = .next { u with
      shadow := (List.range (s.h.wlen.toNat - 1)).map (fun k => s.mem.read (regionAddr s.p s.h.wbase (k + 1)))
      mem := s.mem.write (regionAddr s.p s.h.wbase 0) (control &&& ~~~s.p.commitMask) }) ∧
    (¬ commit → step s = .next u)

/-- R13, R33, R54, R118: the host's own memory accesses, and where they stop. -/
def Obligations.HostMemoryAccesses : Prop :=
  ∀ (s : State) (a : Addr) (v : Byte) (rest : List Item), s.mem.wf →
    let u : State := { s with script := rest, out := Out.empty }
    (s.script = .load a :: rest →
      (a.toNat < 2 ^ s.p.addrWidth →
        step s = .next { u with out := { Out.empty with loaded := some (s.mem.read a.toNat) } }) ∧
      (2 ^ s.p.addrWidth ≤ a.toNat → step s = .fault (.noSuchAddress a))) ∧
    (s.script = .store a v :: rest →
      (a.toNat < 2 ^ s.p.addrWidth → ¬ inW s a.toNat →
        ∃ m, step s = .next { u with mem := m } ∧ m.read a.toNat = v ∧ ∀ b, b ≠ a.toNat → m.read b = s.mem.read b) ∧
      (a.toNat < 2 ^ s.p.addrWidth → inW s a.toNat → step s = .refused .hostStoreToW) ∧
      (2 ^ s.p.addrWidth ≤ a.toNat → step s = .fault (.noSuchAddress a)))

/-! ### The whole machine -/

/-- R37, R98, R131: every step from a state in the invariant ends in one; no fault is recorded under the duties. -/
def Obligations.EveryStepKeepsTheInvariant : Prop := ∀ s t : State, Inv s → step s = .next t → Inv t

/-- R131: no run from power-on, whatever dutiful script the master and the host choose, records a fault. -/
def Obligations.NoFaultIsReachableUnderTheDuties : Prop :=
  ∀ (p : Params) (addr : BitVec 7) (cells : List (Addr × Byte)) (shadow : List Byte) (script : List Item) (k : Nat) (t : State),
    p.wf = true → (∀ it ∈ script, itemDutiful it = true) →
    Host.Core.run Sys2Proof.core k (State.powerOn p addr (Memory.ofCells p.addrWidth cells) shadow script) = .next t →
    t.fault = none ∧ t.e.state.isResting = true

/-- R37 (I1), (I2), (I5), (I6) hold of every state in the invariant. -/
def Obligations.InvariantGivesTheSpecsInvariants : Prop :=
  ∀ s : State, Inv s →
    (s.e.state = .idle → s.e.busy = false ∧ s.e.checksum = s.p.checksumSeed ∧ s.t.kind = none) ∧
    (s.e.busy = true → s.e.state ≠ .idle) ∧
    (s.e.state.isResting = true) ∧
    ¬ (s.t.startF = true ∧ s.t.doneF = true) ∧
    (s.t.doneF = true → s.t.kind = none) ∧
    (s.t.drive = false → s.t.kind = some .out ∧ s.t.out.getLsbD (s.t.cnt.toNat - 1) = false)

/-- Every step keeps memory in its canonical form, from every state that has it. -/
def Obligations.EveryStepKeepsMemoryCanonical : Prop := ∀ s t : State, s.mem.wf → step s = .next t → t.mem.wf

/-- R9: no step changes a build-time parameter or the slave address. -/
def Obligations.NoStepChangesAParameter : Prop := ∀ s t : State, step s = .next t → t.p = s.p ∧ t.e.addr = s.e.addr

/-- R39, R42: a step that is not the host's own store, the commit consumer or power-on changes no byte outside the
writable window. -/
def Obligations.NoStepStoresOutsideTheWritableWindow : Prop :=
  ∀ s t : State, step s = .next t → hostWrites s.script = false →
    ∀ a, ¬ inW s a → t.mem.read a = s.mem.read a

/-- R34, R129: only the commit consumer and power-on write the shadow, and the consumer writes a whole payload. -/
def Obligations.OnlyTheConsumerWritesTheShadow : Prop :=
  ∀ s t : State, step s = .next t → powersOn s.script = false →
    t.shadow = s.shadow ∨
    (∃ rest, s.script = .tick :: rest) ∧ t.e.busy = false ∧
      t.shadow = (List.range (s.h.wlen.toNat - 1)).map (fun k => s.mem.read (regionAddr s.p s.h.wbase (k + 1)))

/-- R30, R131, R132: arming, the first fault and the refusal mark stay until power-on. -/
def Obligations.ArmingFaultAndRefusalMarkAreSticky : Prop :=
  ∀ s t : State, step s = .next t → powersOn s.script = false →
    (s.h.armed = true → t.h.armed = true) ∧ (∀ f, s.fault = some f → t.fault = some f) ∧
    (s.refusalMark = true → t.refusalMark = true)

/-- R27, R107: busy is raised only by a step in which the engine, live in ReceiveByte with the index inside the
writable region, stores the byte it received at that index, and nothing else, and presents ACT_RX. -/
def Obligations.BusyIsRaisedOnlyByAStoredByte : Prop :=
  ∀ s t : State, step s = .next t → s.e.busy = false → t.e.busy = true →
    Live s ∧ s.e.state = .receiveByte ∧ s.e.index.toNat < s.h.wlen.toNat ∧ 0b01#2 ∈ t.out.acts ∧
    ∃ d, Received s t d ∧ (s.mem.wf → t.mem.read (waddr s) = d) ∧ ∀ a, a ≠ waddr s → t.mem.read a = s.mem.read a

/-- R47, R107: a write phase of bytes that fit lands them in order at consecutive offsets and nowhere else. -/
def Obligations.WritePhaseLandsInOrder : Prop :=
  ∀ (s : State) (vs : List Byte), Live s → s.e.state = .receiveByte → s.mem.wf →
    s.p.regionFits s.h.wbase s.h.wlen = true → s.e.index.toNat + vs.length ≤ s.h.wlen.toNat →
    ∃ t, execAll (dataBytes vs) s = .next t ∧ t.e.state = .receiveByte ∧
      t.e.index.toNat = s.e.index.toNat + vs.length ∧ t.e.busy = (s.e.busy || !vs.isEmpty) ∧
      (∀ k v, vs[k]? = some v → t.mem.read (s.h.wbase.toNat + s.e.index.toNat + k) = v) ∧
      (∀ a, a < s.h.wbase.toNat + s.e.index.toNat ∨ s.h.wbase.toNat + s.e.index.toNat + vs.length ≤ a →
        t.mem.read a = s.mem.read a)

/-- R47, R67, R109, R114: a read phase sends the region's bytes from the index on and then the checksum for ever; the
checksum is the XOR of what it was with exactly the bytes drawn. -/
def Obligations.ReadPhaseSendsTheRegionThenTheChecksum : Prop :=
  ∀ (s : State) (x : Bool) (n : Nat), Live s → s.e.state = .transmitByte →
    ∃ t, execAll (.evDoneOut1 x :: acknowledged n) s = .next t ∧ t.e.state = .ackSent ∧
      t.t.kind = some .out ∧ t.t.n = .eight ∧ t.t.cnt = 8 ∧ t.t.out = sentByte s n ∧
      t.e.checksum = checksumAfter s (n + 1) ∧
      t.e.index.toNat = s.e.index.toNat + min (n + 1) (s.h.rlen.toNat - s.e.index.toNat) ∧ t.mem = s.mem
end

