-- ==== Sys2Proof/Laws/Memory.lean ====
section
/-! SUPPORT. The laws of host memory: a read after a write, and the canonical form every write keeps. -/

namespace Sys2Proof.Machine

/-- Every listed address is one of the first `n`. -/
def Memory.below (n : Nat) (m : Memory) : Prop := ∀ c ∈ m, c.1 < n

theorem Memory.read_of_lt (m : Memory) (a : Nat) (h : ∀ c ∈ m, a < c.1) : Memory.read m a = Memory.unlisted := by
  induction m with
  | nil => rfl
  | cons c m ih =>
    have hc := h c (by simp)
    simp only [Memory.read]
    rw [if_neg (by omega)]
    exact ih fun d hd => h d (by simp [hd])

theorem Memory.wf_tail {c : Host.Cell} {m : Memory} (h : Memory.wf (c :: m)) : Memory.wf m :=
  ⟨(List.pairwise_cons.mp h.1).2, fun d hd => h.2 d (by simp [hd])⟩

theorem Memory.head_lt {c : Host.Cell} {m : Memory} (h : Memory.wf (c :: m)) : ∀ d ∈ m, c.1 < d.1 :=
  (List.pairwise_cons.mp h.1).1

/-- A read after a write of the same address gives the value written. -/
theorem Memory.read_write_same (m : Memory) (a : Nat) (v : Byte) (h : Memory.wf m) :
    Memory.read (Memory.write m a v) a = v := by
  induction m with
  | nil => by_cases hv : v = Memory.unlisted <;> simp [Memory.write, Memory.read, hv]
  | cons c m ih =>
    obtain ⟨k, w⟩ := c
    have hlt := Memory.head_lt h
    simp only [Memory.write]
    split_ifs with h1 hv h2 hv
    · rw [hv]
      exact Memory.read_of_lt _ _ fun d hd => by
        rcases List.mem_cons.mp hd with rfl | hd
        · exact h1
        · have := hlt d hd; simp only at this; omega
    · simp [Memory.read]
    · subst h2; rw [hv]
      exact Memory.read_of_lt _ _ hlt
    · simp [Memory.read]
    · simp only [Memory.read]
      rw [if_neg (by omega)]
      exact ih (Memory.wf_tail h)

/-- A write leaves every other address alone, in memory of any form. -/
theorem Memory.read_write_ne (m : Memory) (a b : Nat) (v : Byte) (hab : b ≠ a) :
    Memory.read (Memory.write m a v) b = Memory.read m b := by
  induction m with
  | nil =>
    by_cases hv : v = Memory.unlisted
    · simp [Memory.write, hv]
    · simp [Memory.write, hv, Memory.read, Ne.symm hab]
  | cons c m ih =>
    obtain ⟨k, w⟩ := c
    simp only [Memory.write]
    split_ifs with h1 hv h2 hv
    · rfl
    · simp [Memory.read, Ne.symm hab]
    · subst h2; simp [Memory.read, Ne.symm hab]
    · subst h2; simp [Memory.read, Ne.symm hab]
    · simp only [Memory.read]
      rw [ih]

theorem Memory.mem_write {m : Memory} {a : Nat} {v : Byte} {c : Host.Cell} (hc : c ∈ Memory.write m a v) :
    (c = (a, v) ∧ v ≠ Memory.unlisted) ∨ c ∈ m := by
  induction m with
  | nil =>
    by_cases hv : v = Memory.unlisted <;> simp [Memory.write, hv] at hc
    exact .inl ⟨hc, hv⟩
  | cons d m ih =>
    obtain ⟨k, w⟩ := d
    simp only [Memory.write] at hc
    split_ifs at hc with h1 hv h2 hv
    · exact .inr hc
    · rcases List.mem_cons.mp hc with rfl | hc
      · exact .inl ⟨rfl, hv⟩
      · exact .inr hc
    · exact .inr (List.mem_cons_of_mem _ hc)
    · rcases List.mem_cons.mp hc with rfl | hc
      · exact .inl ⟨rfl, hv⟩
      · exact .inr (List.mem_cons_of_mem _ hc)
    · rcases List.mem_cons.mp hc with rfl | hc
      · exact .inr (by simp)
      · rcases ih hc with h | h
        · exact .inl h
        · exact .inr (List.mem_cons_of_mem _ h)

/-- A write keeps the canonical form. -/
theorem Memory.write_wf (m : Memory) (a : Nat) (v : Byte) (h : Memory.wf m) : Memory.wf (Memory.write m a v) := by
  induction m with
  | nil => by_cases hv : v = Memory.unlisted <;> simp [Memory.write, Memory.wf, hv]
  | cons c m ih =>
    obtain ⟨k, w⟩ := c
    have hlt := Memory.head_lt h
    have ht := Memory.wf_tail h
    have hw := h.2 (k, w) (by simp)
    simp only [Memory.write]
    split_ifs with h1 hv h2 hv
    · exact h
    · refine ⟨List.pairwise_cons.mpr ⟨fun d hd => ?_, h.1⟩, fun d hd => ?_⟩
      · rcases List.mem_cons.mp hd with rfl | hd
        · exact h1
        · have := hlt d hd; simp only at this ⊢; omega
      · rcases List.mem_cons.mp hd with rfl | hd
        · exact hv
        · exact h.2 d hd
    · exact ht
    · subst h2
      refine ⟨List.pairwise_cons.mpr ⟨hlt, ht.1⟩, fun d hd => ?_⟩
      rcases List.mem_cons.mp hd with rfl | hd
      · exact hv
      · exact ht.2 d hd
    · have hi := ih ht
      refine ⟨List.pairwise_cons.mpr ⟨fun d hd => ?_, hi.1⟩, fun d hd => ?_⟩
      · rcases Memory.mem_write hd with ⟨rfl, -⟩ | hd
        · simp only; omega
        · exact hlt d hd
      · rcases List.mem_cons.mp hd with rfl | hd
        · exact hw
        · exact hi.2 d hd

/-- A write at an address below `n` keeps memory below `n`. -/
theorem Memory.write_below {n : Nat} {m : Memory} {a : Nat} (v : Byte) (h : Memory.below n m) (ha : a < n) :
    Memory.below n (Memory.write m a v) := fun c hc => by
  rcases Memory.mem_write hc with ⟨rfl, -⟩ | hc
  · exact ha
  · exact h c hc

theorem Memory.nil_wf : Memory.wf [] := by simp [Memory.wf]

theorem Memory.ofCells_wf (width : Nat) (cs : List (Addr × Byte)) : Memory.wf (Memory.ofCells width cs) := by
  induction cs with
  | nil => exact Memory.nil_wf
  | cons c cs ih => exact Memory.write_wf _ _ _ ih

theorem Memory.ofCells_below (width : Nat) (cs : List (Addr × Byte)) :
    Memory.below (2 ^ width) (Memory.ofCells width cs) := by
  induction cs with
  | nil => intro c hc; simp [Memory.ofCells] at hc
  | cons c cs ih => exact Memory.write_below _ ih (Nat.mod_lt _ (Nat.two_pow_pos width))

theorem regionAddr_lt (p : Params) (base : Addr) (k : Nat) : regionAddr p base k < 2 ^ p.addrWidth :=
  Nat.mod_lt _ (Nat.two_pow_pos _)

/-- Inside a region that fits, the address is the plain sum (R40, R41). -/
theorem regionAddr_eq (p : Params) (base : Addr) (len : Byte) (k : Nat)
    (h : p.regionFits base len = true) (hk : k < len.toNat) : regionAddr p base k = base.toNat + k := by
  simp only [Params.regionFits, Bool.and_eq_true, decide_eq_true_eq] at h
  exact Nat.mod_eq_of_lt (by omega)

/-- The window test says what the window is (R39). -/
theorem inWb_iff (s : State) (a : Nat) : inWb s a = true ↔ inW s a := by
  simp [inWb, inW]

end Sys2Proof.Machine
end

