-- ==== Sys2Proof/Laws/State.lean ====
section
/-! SUPPORT. One lemma per field per update of the state, each true by rfl: what every named update writes and leaves. -/

namespace Sys2Proof.Machine

@[simp] theorem sawLine_p (v : Bool) (s : State) : (sawLine v s).p = s.p := rfl
@[simp] theorem sawLine_e (v : Bool) (s : State) : (sawLine v s).e = s.e := rfl
@[simp] theorem sawLine_t (v : Bool) (s : State) : (sawLine v s).t = s.t := rfl
@[simp] theorem sawLine_h (v : Bool) (s : State) : (sawLine v s).h = s.h := rfl
@[simp] theorem sawLine_mem (v : Bool) (s : State) : (sawLine v s).mem = s.mem := rfl
@[simp] theorem sawLine_shadow (v : Bool) (s : State) : (sawLine v s).shadow = s.shadow := rfl
@[simp] theorem sawLine_fault (v : Bool) (s : State) : (sawLine v s).fault = s.fault := rfl
@[simp] theorem sawLine_refusalMark (v : Bool) (s : State) : (sawLine v s).refusalMark = s.refusalMark := rfl
@[simp] theorem sawLine_script (v : Bool) (s : State) : (sawLine v s).script = s.script := rfl
@[simp] theorem sawLine_out (v : Bool) (s : State) : (sawLine v s).out = { s.out with line := s.out.line ++ [v] } := rfl

@[simp] theorem present_p (a : Act) (s : State) : (present a s).p = s.p := rfl
@[simp] theorem present_e (a : Act) (s : State) : (present a s).e = s.e := rfl
@[simp] theorem present_t (a : Act) (s : State) : (present a s).t = s.t := rfl
@[simp] theorem present_h (a : Act) (s : State) : (present a s).h = s.h := rfl
@[simp] theorem present_mem (a : Act) (s : State) : (present a s).mem = s.mem := rfl
@[simp] theorem present_shadow (a : Act) (s : State) : (present a s).shadow = s.shadow := rfl
@[simp] theorem present_fault (a : Act) (s : State) : (present a s).fault = s.fault := rfl
@[simp] theorem present_refusalMark (a : Act) (s : State) : (present a s).refusalMark = s.refusalMark := rfl
@[simp] theorem present_script (a : Act) (s : State) : (present a s).script = s.script := rfl
@[simp] theorem present_out (a : Act) (s : State) : (present a s).out = { s.out with acts := s.out.acts ++ [actCode a] } := rfl

@[simp] theorem respond_p (w : Word) (s : State) : (respond w s).p = s.p := rfl
@[simp] theorem respond_e (w : Word) (s : State) : (respond w s).e = s.e := rfl
@[simp] theorem respond_t (w : Word) (s : State) : (respond w s).t = s.t := rfl
@[simp] theorem respond_h (w : Word) (s : State) : (respond w s).h = s.h := rfl
@[simp] theorem respond_mem (w : Word) (s : State) : (respond w s).mem = s.mem := rfl
@[simp] theorem respond_shadow (w : Word) (s : State) : (respond w s).shadow = s.shadow := rfl
@[simp] theorem respond_fault (w : Word) (s : State) : (respond w s).fault = s.fault := rfl
@[simp] theorem respond_refusalMark (w : Word) (s : State) : (respond w s).refusalMark = s.refusalMark := rfl
@[simp] theorem respond_script (w : Word) (s : State) : (respond w s).script = s.script := rfl
@[simp] theorem respond_out (w : Word) (s : State) : (respond w s).out = { s.out with resp := some w } := rfl

@[simp] theorem refuse_p (r : RefuseReason) (s : State) : (refuse r s).p = s.p := rfl
@[simp] theorem refuse_e (r : RefuseReason) (s : State) : (refuse r s).e = s.e := rfl
@[simp] theorem refuse_t (r : RefuseReason) (s : State) : (refuse r s).t = s.t := rfl
@[simp] theorem refuse_h (r : RefuseReason) (s : State) : (refuse r s).h = s.h := rfl
@[simp] theorem refuse_mem (r : RefuseReason) (s : State) : (refuse r s).mem = s.mem := rfl
@[simp] theorem refuse_shadow (r : RefuseReason) (s : State) : (refuse r s).shadow = s.shadow := rfl
@[simp] theorem refuse_fault (r : RefuseReason) (s : State) : (refuse r s).fault = s.fault := rfl
@[simp] theorem refuse_refusalMark (r : RefuseReason) (s : State) : (refuse r s).refusalMark = true := rfl
@[simp] theorem refuse_script (r : RefuseReason) (s : State) : (refuse r s).script = s.script := rfl
@[simp] theorem refuse_out (r : RefuseReason) (s : State) : (refuse r s).out = { s.out with refusal := some r } := rfl

@[simp] theorem issue_p (c : TCmd) (s : State) : (issue c s).p = s.p := rfl
@[simp] theorem issue_e (c : TCmd) (s : State) : (issue c s).e = s.e := rfl
@[simp] theorem issue_t (c : TCmd) (s : State) : (issue c s).t = carryOut c s.t := rfl
@[simp] theorem issue_h (c : TCmd) (s : State) : (issue c s).h = s.h := rfl
@[simp] theorem issue_mem (c : TCmd) (s : State) : (issue c s).mem = s.mem := rfl
@[simp] theorem issue_shadow (c : TCmd) (s : State) : (issue c s).shadow = s.shadow := rfl
@[simp] theorem issue_fault (c : TCmd) (s : State) : (issue c s).fault = s.fault := rfl
@[simp] theorem issue_refusalMark (c : TCmd) (s : State) : (issue c s).refusalMark = s.refusalMark := rfl
@[simp] theorem issue_script (c : TCmd) (s : State) : (issue c s).script = s.script := rfl
@[simp] theorem issue_out (c : TCmd) (s : State) : (issue c s).out = { s.out with cmds := s.out.cmds ++ [commandWord c] } := rfl

@[simp] theorem setState_p (x : EState) (s : State) : (setState x s).p = s.p := rfl
@[simp] theorem setState_e (x : EState) (s : State) : (setState x s).e = { s.e with state := x } := rfl
@[simp] theorem setState_t (x : EState) (s : State) : (setState x s).t = s.t := rfl
@[simp] theorem setState_h (x : EState) (s : State) : (setState x s).h = s.h := rfl
@[simp] theorem setState_mem (x : EState) (s : State) : (setState x s).mem = s.mem := rfl
@[simp] theorem setState_shadow (x : EState) (s : State) : (setState x s).shadow = s.shadow := rfl
@[simp] theorem setState_fault (x : EState) (s : State) : (setState x s).fault = s.fault := rfl
@[simp] theorem setState_refusalMark (x : EState) (s : State) : (setState x s).refusalMark = s.refusalMark := rfl
@[simp] theorem setState_script (x : EState) (s : State) : (setState x s).script = s.script := rfl
@[simp] theorem setState_out (x : EState) (s : State) : (setState x s).out = s.out := rfl

@[simp] theorem clearStart_p (s : State) : (clearStart s).p = s.p := rfl
@[simp] theorem clearStart_e (s : State) : (clearStart s).e = s.e := rfl
@[simp] theorem clearStart_t (s : State) : (clearStart s).t = { s.t with startF := false } := rfl
@[simp] theorem clearStart_h (s : State) : (clearStart s).h = s.h := rfl
@[simp] theorem clearStart_mem (s : State) : (clearStart s).mem = s.mem := rfl
@[simp] theorem clearStart_shadow (s : State) : (clearStart s).shadow = s.shadow := rfl
@[simp] theorem clearStart_fault (s : State) : (clearStart s).fault = s.fault := rfl
@[simp] theorem clearStart_refusalMark (s : State) : (clearStart s).refusalMark = s.refusalMark := rfl
@[simp] theorem clearStart_script (s : State) : (clearStart s).script = s.script := rfl
@[simp] theorem clearStart_out (s : State) : (clearStart s).out = s.out := rfl

@[simp] theorem clearDone_p (s : State) : (clearDone s).p = s.p := rfl
@[simp] theorem clearDone_e (s : State) : (clearDone s).e = s.e := rfl
@[simp] theorem clearDone_t (s : State) : (clearDone s).t = { s.t with doneF := false } := rfl
@[simp] theorem clearDone_h (s : State) : (clearDone s).h = s.h := rfl
@[simp] theorem clearDone_mem (s : State) : (clearDone s).mem = s.mem := rfl
@[simp] theorem clearDone_shadow (s : State) : (clearDone s).shadow = s.shadow := rfl
@[simp] theorem clearDone_fault (s : State) : (clearDone s).fault = s.fault := rfl
@[simp] theorem clearDone_refusalMark (s : State) : (clearDone s).refusalMark = s.refusalMark := rfl
@[simp] theorem clearDone_script (s : State) : (clearDone s).script = s.script := rfl
@[simp] theorem clearDone_out (s : State) : (clearDone s).out = s.out := rfl

@[simp] theorem queryBusy_p (s : State) : (queryBusy s).p = s.p := rfl
@[simp] theorem queryBusy_e (s : State) : (queryBusy s).e = { s.e with busy := busyAnswer s } := rfl
@[simp] theorem queryBusy_t (s : State) : (queryBusy s).t = s.t := rfl
@[simp] theorem queryBusy_h (s : State) : (queryBusy s).h = s.h := rfl
@[simp] theorem queryBusy_mem (s : State) : (queryBusy s).mem = s.mem := rfl
@[simp] theorem queryBusy_shadow (s : State) : (queryBusy s).shadow = s.shadow := rfl
@[simp] theorem queryBusy_fault (s : State) : (queryBusy s).fault = s.fault := rfl
@[simp] theorem queryBusy_refusalMark (s : State) : (queryBusy s).refusalMark = s.refusalMark := rfl
@[simp] theorem queryBusy_script (s : State) : (queryBusy s).script = s.script := rfl
@[simp] theorem queryBusy_out (s : State) : (queryBusy s).out = s.out := rfl

@[simp] theorem beginStep_p (s : State) : (beginStep s).p = s.p := rfl
@[simp] theorem beginStep_e (s : State) : (beginStep s).e = s.e := rfl
@[simp] theorem beginStep_t (s : State) : (beginStep s).t = s.t := rfl
@[simp] theorem beginStep_h (s : State) : (beginStep s).h = s.h := rfl
@[simp] theorem beginStep_mem (s : State) : (beginStep s).mem = s.mem := rfl
@[simp] theorem beginStep_shadow (s : State) : (beginStep s).shadow = s.shadow := rfl
@[simp] theorem beginStep_fault (s : State) : (beginStep s).fault = s.fault := rfl
@[simp] theorem beginStep_refusalMark (s : State) : (beginStep s).refusalMark = s.refusalMark := rfl
@[simp] theorem beginStep_script (s : State) : (beginStep s).script = s.script := rfl
@[simp] theorem beginStep_out (s : State) : (beginStep s).out = Out.empty := rfl

@[simp] theorem takeItem_p (rest : List Item) (s : State) : (takeItem rest s).p = s.p := rfl
@[simp] theorem takeItem_e (rest : List Item) (s : State) : (takeItem rest s).e = s.e := rfl
@[simp] theorem takeItem_t (rest : List Item) (s : State) : (takeItem rest s).t = s.t := rfl
@[simp] theorem takeItem_h (rest : List Item) (s : State) : (takeItem rest s).h = s.h := rfl
@[simp] theorem takeItem_mem (rest : List Item) (s : State) : (takeItem rest s).mem = s.mem := rfl
@[simp] theorem takeItem_shadow (rest : List Item) (s : State) : (takeItem rest s).shadow = s.shadow := rfl
@[simp] theorem takeItem_fault (rest : List Item) (s : State) : (takeItem rest s).fault = s.fault := rfl
@[simp] theorem takeItem_refusalMark (rest : List Item) (s : State) : (takeItem rest s).refusalMark = s.refusalMark := rfl
@[simp] theorem takeItem_script (rest : List Item) (s : State) : (takeItem rest s).script = rest := rfl
@[simp] theorem takeItem_out (rest : List Item) (s : State) : (takeItem rest s).out = Out.empty := rfl

@[simp] theorem raise_p (r : FaultReason) (w : BitVec 12) (s : State) : (raise r w s).p = s.p := rfl
@[simp] theorem raise_e (r : FaultReason) (w : BitVec 12) (s : State) : (raise r w s).e = s.e := rfl
@[simp] theorem raise_t (r : FaultReason) (w : BitVec 12) (s : State) : (raise r w s).t = s.t := rfl
@[simp] theorem raise_h (r : FaultReason) (w : BitVec 12) (s : State) : (raise r w s).h = s.h := rfl
@[simp] theorem raise_mem (r : FaultReason) (w : BitVec 12) (s : State) : (raise r w s).mem = s.mem := rfl
@[simp] theorem raise_shadow (r : FaultReason) (w : BitVec 12) (s : State) : (raise r w s).shadow = s.shadow := rfl
@[simp] theorem raise_refusalMark (r : FaultReason) (w : BitVec 12) (s : State) : (raise r w s).refusalMark = s.refusalMark := rfl
@[simp] theorem raise_script (r : FaultReason) (w : BitVec 12) (s : State) : (raise r w s).script = s.script := rfl
@[simp] theorem raise_out (r : FaultReason) (w : BitVec 12) (s : State) : (raise r w s).out = s.out := rfl

theorem raise_fault_none (r : FaultReason) (w : BitVec 12) (s : State) (hf : s.fault = none) :
    (raise r w s).fault = some { reason := r, state := s.e.state.code, ev := w } := by
  simp [raise, hf]

theorem raise_fault_some (r : FaultReason) (w : BitVec 12) (s : State) (f : FaultRec) (hf : s.fault = some f) :
    (raise r w s).fault = some f := by
  simp [raise, hf]

@[simp] theorem endpointReset_p (s : State) : (endpointReset s).p = s.p := rfl
@[simp] theorem endpointReset_h (s : State) : (endpointReset s).h = s.h := rfl
@[simp] theorem endpointReset_mem (s : State) : (endpointReset s).mem = s.mem := rfl
@[simp] theorem endpointReset_shadow (s : State) : (endpointReset s).shadow = s.shadow := rfl
@[simp] theorem endpointReset_fault (s : State) : (endpointReset s).fault = s.fault := rfl
@[simp] theorem endpointReset_refusalMark (s : State) : (endpointReset s).refusalMark = s.refusalMark := rfl
@[simp] theorem endpointReset_script (s : State) : (endpointReset s).script = s.script := rfl
@[simp] theorem endpointReset_t (s : State) : (endpointReset s).t = disarm s.t := rfl
@[simp] theorem endpointReset_out (s : State) :
    (endpointReset s).out = { s.out with cmds := s.out.cmds ++ [0x000#12] } := rfl
@[simp] theorem endpointReset_e (s : State) :
    (endpointReset s).e = { s.e with
      state := .idle, busy := false, checksum := s.p.checksumSeed
      haveIndex := if s.p.resetClearsHaveIndex then false else s.e.haveIndex } := rfl

@[simp] theorem disarm_kind (t : Transport) : (disarm t).kind = none := rfl
@[simp] theorem disarm_n (t : Transport) : (disarm t).n = t.n := rfl
@[simp] theorem disarm_cnt (t : Transport) : (disarm t).cnt = 0 := rfl
@[simp] theorem disarm_out (t : Transport) : (disarm t).out = t.out := rfl
@[simp] theorem disarm_sr (t : Transport) : (disarm t).sr = t.sr := rfl
@[simp] theorem disarm_drive (t : Transport) : (disarm t).drive = true := rfl
@[simp] theorem disarm_startF (t : Transport) : (disarm t).startF = t.startF := rfl
@[simp] theorem disarm_stopF (t : Transport) : (disarm t).stopF = t.stopF := rfl
@[simp] theorem disarm_doneF (t : Transport) : (disarm t).doneF = t.doneF := rfl
@[simp] theorem disarm_doneKind (t : Transport) : (disarm t).doneKind = t.doneKind := rfl
@[simp] theorem disarm_doneN (t : Transport) : (disarm t).doneN = t.doneN := rfl
@[simp] theorem disarm_doneData (t : Transport) : (disarm t).doneData = t.doneData := rfl

@[simp] theorem armIn1_kind (t : Transport) : (armIn1 t).kind = some .inp := rfl
@[simp] theorem armIn1_n (t : Transport) : (armIn1 t).n = .one := rfl
@[simp] theorem armIn1_cnt (t : Transport) : (armIn1 t).cnt = 1 := rfl
@[simp] theorem armIn1_out (t : Transport) : (armIn1 t).out = t.out := rfl
@[simp] theorem armIn1_sr (t : Transport) : (armIn1 t).sr = t.sr := rfl
@[simp] theorem armIn1_drive (t : Transport) : (armIn1 t).drive = true := rfl
@[simp] theorem armIn1_startF (t : Transport) : (armIn1 t).startF = t.startF := rfl
@[simp] theorem armIn1_stopF (t : Transport) : (armIn1 t).stopF = t.stopF := rfl
@[simp] theorem armIn1_doneF (t : Transport) : (armIn1 t).doneF = t.doneF := rfl
@[simp] theorem armIn1_doneKind (t : Transport) : (armIn1 t).doneKind = t.doneKind := rfl
@[simp] theorem armIn1_doneN (t : Transport) : (armIn1 t).doneN = t.doneN := rfl
@[simp] theorem armIn1_doneData (t : Transport) : (armIn1 t).doneData = t.doneData := rfl

@[simp] theorem armIn8_kind (t : Transport) : (armIn8 t).kind = some .inp := rfl
@[simp] theorem armIn8_n (t : Transport) : (armIn8 t).n = .eight := rfl
@[simp] theorem armIn8_cnt (t : Transport) : (armIn8 t).cnt = 8 := rfl
@[simp] theorem armIn8_out (t : Transport) : (armIn8 t).out = t.out := rfl
@[simp] theorem armIn8_sr (t : Transport) : (armIn8 t).sr = t.sr := rfl
@[simp] theorem armIn8_drive (t : Transport) : (armIn8 t).drive = true := rfl
@[simp] theorem armIn8_startF (t : Transport) : (armIn8 t).startF = t.startF := rfl
@[simp] theorem armIn8_stopF (t : Transport) : (armIn8 t).stopF = t.stopF := rfl
@[simp] theorem armIn8_doneF (t : Transport) : (armIn8 t).doneF = t.doneF := rfl
@[simp] theorem armIn8_doneKind (t : Transport) : (armIn8 t).doneKind = t.doneKind := rfl
@[simp] theorem armIn8_doneN (t : Transport) : (armIn8 t).doneN = t.doneN := rfl
@[simp] theorem armIn8_doneData (t : Transport) : (armIn8 t).doneData = t.doneData := rfl

@[simp] theorem armOut1_kind (b : Bool) (t : Transport) : (armOut1 b t).kind = some .out := rfl
@[simp] theorem armOut1_n (b : Bool) (t : Transport) : (armOut1 b t).n = .one := rfl
@[simp] theorem armOut1_cnt (b : Bool) (t : Transport) : (armOut1 b t).cnt = 1 := rfl
@[simp] theorem armOut1_out (b : Bool) (t : Transport) : (armOut1 b t).out = bitByte b := rfl
@[simp] theorem armOut1_sr (b : Bool) (t : Transport) : (armOut1 b t).sr = t.sr := rfl
@[simp] theorem armOut1_drive (b : Bool) (t : Transport) : (armOut1 b t).drive = b := rfl
@[simp] theorem armOut1_startF (b : Bool) (t : Transport) : (armOut1 b t).startF = t.startF := rfl
@[simp] theorem armOut1_stopF (b : Bool) (t : Transport) : (armOut1 b t).stopF = t.stopF := rfl
@[simp] theorem armOut1_doneF (b : Bool) (t : Transport) : (armOut1 b t).doneF = t.doneF := rfl
@[simp] theorem armOut1_doneKind (b : Bool) (t : Transport) : (armOut1 b t).doneKind = t.doneKind := rfl
@[simp] theorem armOut1_doneN (b : Bool) (t : Transport) : (armOut1 b t).doneN = t.doneN := rfl
@[simp] theorem armOut1_doneData (b : Bool) (t : Transport) : (armOut1 b t).doneData = t.doneData := rfl

@[simp] theorem armOut8_kind (v : Byte) (t : Transport) : (armOut8 v t).kind = some .out := rfl
@[simp] theorem armOut8_n (v : Byte) (t : Transport) : (armOut8 v t).n = .eight := rfl
@[simp] theorem armOut8_cnt (v : Byte) (t : Transport) : (armOut8 v t).cnt = 8 := rfl
@[simp] theorem armOut8_out (v : Byte) (t : Transport) : (armOut8 v t).out = v := rfl
@[simp] theorem armOut8_sr (v : Byte) (t : Transport) : (armOut8 v t).sr = t.sr := rfl
@[simp] theorem armOut8_drive (v : Byte) (t : Transport) : (armOut8 v t).drive = v.getLsbD 7 := rfl
@[simp] theorem armOut8_startF (v : Byte) (t : Transport) : (armOut8 v t).startF = t.startF := rfl
@[simp] theorem armOut8_stopF (v : Byte) (t : Transport) : (armOut8 v t).stopF = t.stopF := rfl
@[simp] theorem armOut8_doneF (v : Byte) (t : Transport) : (armOut8 v t).doneF = t.doneF := rfl
@[simp] theorem armOut8_doneKind (v : Byte) (t : Transport) : (armOut8 v t).doneKind = t.doneKind := rfl
@[simp] theorem armOut8_doneN (v : Byte) (t : Transport) : (armOut8 v t).doneN = t.doneN := rfl
@[simp] theorem armOut8_doneData (v : Byte) (t : Transport) : (armOut8 v t).doneData = t.doneData := rfl

end Sys2Proof.Machine
end

