-- ==== Sys2Proof/Laws/Engine.lean ====
section
/-! SUPPORT. What the transport's primitives and the engine step can do, each said once. -/

namespace Sys2Proof.Machine

open Sys2Proof.Safety

@[simp] theorem carryOut_startF (c : TCmd) (t : Transport) : (carryOut c t).startF = t.startF := by cases c <;> rfl
@[simp] theorem carryOut_stopF (c : TCmd) (t : Transport) : (carryOut c t).stopF = t.stopF := by cases c <;> rfl
@[simp] theorem carryOut_doneF (c : TCmd) (t : Transport) : (carryOut c t).doneF = t.doneF := by cases c <;> rfl
@[simp] theorem carryOut_sr (c : TCmd) (t : Transport) : (carryOut c t).sr = t.sr := by cases c <;> rfl
@[simp] theorem carryOut_doneKind (c : TCmd) (t : Transport) : (carryOut c t).doneKind = t.doneKind := by cases c <;> rfl
@[simp] theorem carryOut_doneN (c : TCmd) (t : Transport) : (carryOut c t).doneN = t.doneN := by cases c <;> rfl
@[simp] theorem carryOut_doneData (c : TCmd) (t : Transport) : (carryOut c t).doneData = t.doneData := by cases c <;> rfl

/-- A command given with no flag pending leaves the transport in order. -/
theorem carryOut_ok (c : TCmd) (t : Transport) (hs : t.startF = false) (hd : t.doneF = false) :
    TransportOk (carryOut c t) := by
  cases c <;> constructor <;>
    simp_all [carryOut, disarm, armIn1, armIn8, armOut1, armOut8, flagged, bitsOf, bitByte]
  rename_i b
  cases b <;> decide

/-- What an engine step leaves alone, and the one store it may make: the data byte into W (R39, R42, R96). -/
structure EngineKeeps (s t : State) : Prop where
  p : t.p = s.p
  h : t.h = s.h
  addr : t.e.addr = s.e.addr
  shadow : t.shadow = s.shadow
  script : t.script = s.script
  refusalMark : t.refusalMark = s.refusalMark
  line : t.out.line = s.out.line
  mem : t.mem = s.mem ∨ (s.e.index < s.h.wlen ∧ ∃ d, t.mem = s.mem.write (waddr s) d)

theorem startHandler_keeps (s : State) : EngineKeeps s (startHandler s) := by
  unfold startHandler
  split <;> constructor <;> simp

theorem addressReceived_keeps (d : Byte) (s : State) : EngineKeeps s (addressReceived d s) := by
  unfold addressReceived ackOrNack
  dsimp only
  split_ifs <;> constructor <;> simp

theorem receiveIndexByte_keeps (d : Byte) (s : State) : EngineKeeps s (receiveIndexByte d s) := by
  unfold receiveIndexByte ackIndex
  constructor <;> simp

theorem receiveByte_keeps (d : Byte) (s : State) : EngineKeeps s (receiveByte d s) := by
  unfold receiveByte ackReceivedByte
  dsimp only
  split_ifs with hi <;> constructor <;> simp
  all_goals exact .inr ⟨hi, d, rfl⟩

theorem transmitByte_keeps (s : State) : EngineKeeps s (transmitByte s) := by
  unfold transmitByte
  dsimp only
  split_ifs <;> constructor <;> simp

theorem ackSent_keeps (b : Bool) (s : State) : EngineKeeps s (ackSent b s) := by
  unfold ackSent transmitByte
  dsimp only
  split_ifs <;> constructor <;> simp

theorem clearDone_keeps {s t : State} (h : EngineKeeps s t) : EngineKeeps s (clearDone t) := ⟨h.1, h.2, h.3, h.4, h.5, h.6, h.7, h.8⟩

theorem unexpected_keeps (k : EvKind) (d : Byte) (s : State) : EngineKeeps s (unexpected k d s) := by
  constructor <;> simp [unexpected]

/-- The dispatch table keeps what an engine step keeps. -/
theorem dispatch_keeps (k : EvKind) (d : Byte) (s : State) : EngineKeeps s (dispatch k d s) := by
  unfold dispatch
  split
  · constructor <;> simp
  cases k with
  | start => exact startHandler_keeps s
  | in1 =>
    dsimp only
    split
    · exact clearDone_keeps (ackSent_keeps _ s)
    · exact unexpected_keeps ..
  | in8 =>
    dsimp only
    split
    · exact clearDone_keeps (addressReceived_keeps d s)
    · exact clearDone_keeps (receiveIndexByte_keeps d s)
    · exact clearDone_keeps (receiveByte_keeps d s)
    · exact unexpected_keeps ..
  | out1 =>
    dsimp only
    split
    · exact clearDone_keeps (by constructor <;> simp [armNextByte])
    · exact clearDone_keeps (by constructor <;> simp [armNextByte])
    · exact clearDone_keeps (transmitByte_keeps s)
    · exact clearDone_keeps (by constructor <;> simp [nackDone])
    · exact unexpected_keeps ..
  | out8 =>
    dsimp only
    split
    · exact clearDone_keeps (by constructor <;> simp [armMasterAck])
    · exact unexpected_keeps ..

theorem engineKeeps_refl (s : State) : EngineKeeps s s := ⟨rfl, rfl, rfl, rfl, rfl, rfl, rfl, .inl rfl⟩

/-- What every engine step keeps. -/
theorem engineStep_keeps (k : EvKind) (d : Byte) (s : State) : EngineKeeps s (engineStep k d s) := by
  unfold engineStep
  split
  · exact dispatch_keeps k d s
  · exact engineKeeps_refl s

/-- What serving the engine keeps. -/
theorem serveEngine_keeps (s : State) : EngineKeeps s (serveEngine s) := by
  unfold serveEngine
  split
  · exact engineStep_keeps ..
  · exact engineKeeps_refl s

/-- An engine step keeps memory canonical. -/
theorem engineKeeps_wf {s t : State} (h : EngineKeeps s t) (hw : s.mem.wf) : t.mem.wf := by
  rcases h.mem with h | ⟨-, d, h⟩ <;> rw [h]
  · exact hw
  · exact Memory.write_wf _ _ _ hw

/-- An engine step stores nothing outside the writable window (R39, R42). -/
theorem engineKeeps_outside_W {s t : State} (h : EngineKeeps s t) (a : Nat) (ha : ¬ inW s a) :
    t.mem.read a = s.mem.read a := by
  rcases h.mem with h | ⟨hi, d, h⟩ <;> rw [h]
  exact Memory.read_write_ne _ _ _ _ fun hc => ha ⟨s.e.index.toNat, hi, hc⟩

/-- Unarmed or faulted, the engine takes no step (R30, R131). -/
theorem engineStep_of_not_live (k : EvKind) (d : Byte) (s : State) (h : engineLive s = false) : engineStep k d s = s := by
  simp [engineStep, h]

theorem engineStep_of_live (k : EvKind) (d : Byte) (s : State) (h : engineLive s = true) :
    engineStep k d s = dispatch k d s := by
  simp [engineStep, h]

theorem serveEngine_of_not_enabled (s : State) (h : engineEnabled s = false) : serveEngine s = s := by
  simp [serveEngine, h]

/-- An enabled engine step is the dispatch of the pending event (R94). -/
theorem serveEngine_of_enabled (s : State) (h : engineEnabled s = true) :
    serveEngine s = dispatch (pendingKind s.t) (pendingData s.t) s := by
  have hl : engineLive s = true := by simp only [engineEnabled, Bool.and_eq_true] at h; exact h.1
  simp [serveEngine, h, engineStep, hl]

/-- What an engine step on an event word does: it only adds activity codes, a byte in that it arms has all its bits to
come (R91), one row alone raises busy, by storing the byte at the index (R107), and only the event of a byte in may
store. -/
structure EngineDoes (k : EvKind) (d : Byte) (s t : State) : Prop where
  acts : s.out.acts <+: t.out.acts
  arms : s.t.kind = none → t.t.kind = some .inp → t.t.n = .eight → t.t.cnt = 8
  busy : s.e.busy = false → t.e.busy = true →
    k = .in8 ∧ engineLive s = true ∧ s.e.state = .receiveByte ∧ s.e.index < s.h.wlen ∧
      t.mem = s.mem.write (waddr s) d ∧ actCode .rx ∈ t.out.acts
  mem : k ≠ .in8 → t.mem = s.mem

theorem engineDoes_refl (k : EvKind) (d : Byte) (s : State) : EngineDoes k d s s where
  acts := List.prefix_rfl
  arms h hk := by rw [h] at hk; cases hk
  busy h0 h1 := by rw [h0] at h1; cases h1
  mem _ := rfl

/-- What the dispatch table does. -/
theorem dispatch_does (k : EvKind) (d : Byte) (s : State) (hl : engineLive s = true) :
    EngineDoes k d s (dispatch k d s) := by
  have hf : ∀ r w, EngineDoes k d s (present .none (raise r w s)) := fun r w => by
    constructor <;> simp +contextual
  unfold dispatch
  split
  · exact hf ..
  cases k with
  | start => constructor <;> simp only [startHandler, clearStart] <;> split <;> simp +contextual [carryOut, armIn8]
  | in1 =>
    dsimp only
    split
    · constructor <;> simp only [clearDone, ackSent, transmitByte] <;> split_ifs <;>
        simp +contextual [carryOut, disarm, armOut8]
    · exact hf ..
  | in8 =>
    dsimp only
    split
    · constructor <;> simp only [clearDone, addressReceived, ackOrNack] <;> split_ifs <;>
        simp +contextual [carryOut, armOut1]
    · constructor <;> simp +contextual [clearDone, receiveIndexByte, ackIndex, carryOut, armOut1]
    · rename_i hs
      constructor <;> simp only [clearDone, receiveByte, ackReceivedByte] <;> by_cases hi : s.e.index < s.h.wlen <;>
        simp +contextual [hs, hi, hl, waddr, carryOut, armOut1]
    · exact hf ..
  | out1 =>
    dsimp only
    split
    · constructor <;> simp +contextual [clearDone, armNextByte, carryOut, armIn8]
    · constructor <;> simp +contextual [clearDone, armNextByte, carryOut, armIn8]
    · constructor <;> simp only [clearDone, transmitByte] <;> split_ifs <;> simp +contextual [carryOut, armOut8]
    · constructor <;> simp +contextual [clearDone, nackDone, disarm]
    · exact hf ..
  | out8 =>
    dsimp only
    split
    · constructor <;> simp +contextual [clearDone, armMasterAck, carryOut, armIn1]
    · exact hf ..

/-- What every engine step does. -/
theorem engineStep_does (k : EvKind) (d : Byte) (s : State) : EngineDoes k d s (engineStep k d s) := by
  unfold engineStep
  split
  · next hl => exact dispatch_does k d s hl
  · exact engineDoes_refl k d s

end Sys2Proof.Machine
end

