-- ==== Sys2Proof/Laws/Bus.lean ====
section
/-! SUPPORT. What a bus symbol and a wire frame can do, each said once. -/

namespace Sys2Proof.Machine

open Sys2Proof.Safety

/-- Everything a clock can answer: unseen while unarmed, turned away while a flag is pending, ignored with nothing
armed, a shift otherwise (R81, R82, R86 to R88). -/
theorem busClock_cases (m : Bool) (s : State) :
    (s.h.armed = false ∧ busClock m s = .next (sawLine m s)) ∨
    (s.h.armed = true ∧ flagged s.t = true ∧ busClock m s = .refused .flagPending) ∨
    (s.h.armed = true ∧ flagged s.t = false ∧ s.t.kind = none ∧ busClock m s = .next (sawLine m s)) ∨
    ∃ dir, s.h.armed = true ∧ flagged s.t = false ∧ s.t.kind = some dir ∧
      busClock m s = .next (sawLine (m && s.t.drive) { s with t := shift dir m s.t }) := by
  cases ha : s.h.armed <;> cases hf : flagged s.t <;> cases hk : s.t.kind <;> simp [busClock, ha, hf, hk]

/-- Everything a start or stop condition can answer (R81 to R84). -/
theorem busEdge_cases (f : Transport → Transport) (s : State) :
    (s.h.armed = false ∧ busEdge f s = .next s) ∨
    (s.h.armed = true ∧ flagged s.t = true ∧ busEdge f s = .refused .flagPending) ∨
    (s.h.armed = true ∧ flagged s.t = false ∧ s.t.drive = false ∧ busEdge f s = .refused .lineHeldLow) ∨
    (s.h.armed = true ∧ flagged s.t = false ∧ s.t.drive = true ∧ busEdge f s = .next { s with t := f s.t }) := by
  cases ha : s.h.armed <;> cases hf : flagged s.t <;> cases hd : s.t.drive <;> simp [busEdge, ha, hf, hd]

/-- What a clock leaves alone: all but the transport and the line record. -/
structure BusKeeps (s t : State) : Prop where
  p : t.p = s.p
  e : t.e = s.e
  h : t.h = s.h
  mem : t.mem = s.mem
  shadow : t.shadow = s.shadow
  fault : t.fault = s.fault
  script : t.script = s.script
  refusalMark : t.refusalMark = s.refusalMark

theorem busClock_keeps {m : Bool} {s t : State} (h : busClock m s = .next t) : BusKeeps s t := by
  rcases busClock_cases m s with ⟨-, e⟩ | ⟨-, -, e⟩ | ⟨-, -, -, e⟩ | ⟨dir, -, -, -, e⟩ <;> rw [e] at h <;>
    cases h <;> constructor <;> simp

theorem busEdge_keeps {f : Transport → Transport} {s t : State} (h : busEdge f s = .next t) : BusKeeps s t := by
  rcases busEdge_cases f s with ⟨-, e⟩ | ⟨-, -, e⟩ | ⟨-, -, -, e⟩ | ⟨-, -, -, e⟩ <;> rw [e] at h <;>
    cases h <;> constructor <;> simp

/-- No clock faults. -/
theorem busClock_no_fault (m : Bool) (s : State) (r : Fault) : busClock m s ≠ .fault r := by
  rcases busClock_cases m s with ⟨-, e⟩ | ⟨-, -, e⟩ | ⟨-, -, -, e⟩ | ⟨dir, -, -, -, e⟩ <;> rw [e] <;> simp

/-- A clock and the engine step after it. -/
theorem clockServed_next {m : Bool} {s t : State} (h : clockServed m s = .next t) :
    ∃ u, busClock m s = .next u ∧ t = serveEngine u := by
  unfold clockServed at h
  split at h
  · next u e => exact ⟨u, e, by cases h; rfl⟩
  · cases h
  · cases h

theorem frame_cons_next {m : Bool} {ms : List Bool} {s t : State} (h : frame (m :: ms) s = .next t) :
    ∃ u, clockServed m s = .next u ∧ frame ms u = .next t := by
  simp only [frame] at h
  split at h
  · next u e => exact ⟨u, e, h⟩
  · cases h
  · cases h

/-- A frame keeps whatever a clock keeps and serving the engine keeps: the induction over frames, once. -/
theorem frame_induction {P : State → Prop} (hclock : ∀ m s t, P s → busClock m s = .next t → P t)
    (hserve : ∀ s, P s → P (serveEngine s)) (ms : List Bool) :
    ∀ s t, P s → frame ms s = .next t → P t := by
  induction ms with
  | nil => intro s t hp h; cases h; exact hp
  | cons m ms ih =>
    intro s t hp h
    obtain ⟨u, hu, ht⟩ := frame_cons_next h
    obtain ⟨v, hv, rfl⟩ := clockServed_next hu
    exact ih _ _ (hserve v (hclock m s v hp hv)) ht

/-- The last bit of a transfer completes it (R86). -/
theorem shift_last (dir : Dir) (m : Bool) (t : Transport) (h : t.cnt = 1) :
    shift dir m t = { t with
      sr := shiftIn t.sr (m && t.drive), cnt := 0, kind := none, drive := true
      doneF := true, doneKind := dir, doneN := t.n
      doneData := match t.n with
        | .eight => shiftIn t.sr (m && t.drive)
        | .one => bitByte ((shiftIn t.sr (m && t.drive)).getLsbD 0) } := by
  simp only [shift, h]
  cases t.n <;> rfl

/-- Any other bit shifts on (R86). -/
theorem shift_more (dir : Dir) (m : Bool) (t : Transport) (h : t.cnt ≠ 1) :
    shift dir m t = { t with
      sr := shiftIn t.sr (m && t.drive), cnt := t.cnt - 1
      drive := match dir with
        | .out => t.out.getLsbD ((t.cnt - 1).toNat - 1)
        | .inp => t.drive } := by
  have hc : t.cnt - 1 ≠ 0 := fun hc => h (by bv_omega)
  simp only [shift]
  exact (if_neg hc).trans (by cases dir <;> rfl)

@[simp] theorem shift_startF (dir : Dir) (m : Bool) (t : Transport) : (shift dir m t).startF = t.startF := by
  simp only [shift]; split_ifs <;> rfl

@[simp] theorem shift_stopF (dir : Dir) (m : Bool) (t : Transport) : (shift dir m t).stopF = t.stopF := by
  simp only [shift]; split_ifs <;> rfl

/-- A shift leaves the transport in order, and what it waits for is the same transfer, armed or done (R86). -/
theorem shift_ok (dir : Dir) (m : Bool) (t : Transport) (h : TransportOk t) (hk : t.kind = some dir)
    (hf : flagged t = false) :
    TransportOk (shift dir m t) ∧ pendingXfer (shift dir m t) = some (dir, t.n) := by
  simp only [flagged, Bool.or_eq_false_iff] at hf
  obtain ⟨hs, hd⟩ := hf
  have hc := h.armedCount (by simp [hk])
  by_cases h1 : t.cnt = 1
  · rw [shift_last dir m t h1]
    refine ⟨?_, by simp [pendingXfer]⟩
    constructor <;> simp [hs, flagged]
  · rw [shift_more dir m t h1]
    refine ⟨?_, by simp [pendingXfer, hd, hk]⟩
    have h2 : (t.cnt - 1).toNat = t.cnt.toNat - 1 := by
      have : t.cnt.toNat ≠ 1 := fun hn => h1 (by bv_omega)
      bv_omega
    have h3 : t.cnt.toNat ≠ 1 := fun hn => h1 (by bv_omega)
    constructor
    · simp [hd]
    · simp [flagged, hs, hd]
    · simp [hk]
    · intro _; simp only [h2]; omega
    · intro hi; simp only [hk, Option.some.injEq] at hi; subst hi; exact h.inReleases hk
    · intro ho; simp only [hk, Option.some.injEq] at ho; subst ho; rfl

/-- A clock that does not complete the armed transfer is followed by no engine step. -/
theorem clockServed_more (dir : Dir) (m : Bool) (s : State) (ha : s.h.armed = true) (hf : flagged s.t = false)
    (hk : s.t.kind = some dir) (hc : s.t.cnt ≠ 1) :
    clockServed m s = .next (sawLine (m && s.t.drive) { s with t := shift dir m s.t }) := by
  have hfl : flagged (shift dir m s.t) = false := by rw [shift_more dir m s.t hc]; exact hf
  simp only [clockServed, busClock, ha, hf, hk, Bool.not_true, Bool.false_eq_true, if_false]
  rw [serveEngine_of_not_enabled _ (by simp [engineEnabled, hfl])]

/-- The clock that completes the armed transfer is followed by the engine's step. -/
theorem clockServed_armed (dir : Dir) (m : Bool) (s : State) (ha : s.h.armed = true) (hf : flagged s.t = false)
    (hk : s.t.kind = some dir) :
    clockServed m s = .next (serveEngine (sawLine (m && s.t.drive) { s with t := shift dir m s.t })) := by
  simp [clockServed, busClock, ha, hf, hk]

theorem getLsbD_shiftIn (y : Byte) (b : Bool) (i : Nat) (hi : i < 8) :
    (shiftIn y b).getLsbD i = if i = 0 then b else y.getLsbD (i - 1) := by
  simp only [shiftIn, BitVec.getLsbD_append, BitVec.getLsbD_extractLsb', BitVec.getLsbD_ofBool]
  rcases i with - | i
  · simp
  · simp; omega

/-- Eight bits shifted into a byte leave those bits, the first in bit 7 (R61, R86). -/
theorem eight_shifts (x v : Byte) :
    shiftIn (shiftIn (shiftIn (shiftIn (shiftIn (shiftIn (shiftIn (shiftIn x (v.getLsbD 7)) (v.getLsbD 6))
      (v.getLsbD 5)) (v.getLsbD 4)) (v.getLsbD 3)) (v.getLsbD 2)) (v.getLsbD 1)) (v.getLsbD 0) = v := by
  apply BitVec.eq_of_getLsbD_eq
  intro i hi
  have : i = 0 ∨ i = 1 ∨ i = 2 ∨ i = 3 ∨ i = 4 ∨ i = 5 ∨ i = 6 ∨ i = 7 := by omega
  rcases this with rfl | rfl | rfl | rfl | rfl | rfl | rfl | rfl <;>
    simp (disch := omega) only [getLsbD_shiftIn] <;> rfl

/-- The transport after a full byte of line values `w` in direction `dir`: complete and not yet serviced (R86). -/
def byteDone (dir : Dir) (w : Byte) (t : Transport) : Transport :=
  { t with sr := w, cnt := 0, kind := none, drive := true, doneF := true, doneKind := dir, doneN := .eight, doneData := w }

/-- A frame with one clock. -/
theorem frame_one (m : Bool) (s : State) : frame [m] s = clockServed m s := by
  simp only [frame]
  cases clockServed m s <;> rfl

theorem frame_cons_of_next {m : Bool} {ms : List Bool} {s t : State} (h : clockServed m s = .next t) :
    frame (m :: ms) s = frame ms t := by
  simp only [frame, h]

/-- A byte frame into a freshly armed `Arm(IN, 8)`: the byte is received and the engine served (R86, R91). -/
theorem frame_in8 (v : Byte) (s : State) (ha : s.h.armed = true) (hf : flagged s.t = false)
    (hk : s.t.kind = some .inp) (hn : s.t.n = .eight) (hc : s.t.cnt = 8) (hd : s.t.drive = true) :
    frame (byteBits v) s = .next (serveEngine { s with
      t := byteDone .inp v s.t, out := { s.out with line := s.out.line ++ byteBits v } }) := by
  obtain ⟨p, e, ⟨kind, n, cnt, out, sr, drive, startF, stopF, doneF, doneKind, doneN, doneData⟩, h, mem, sh, fl, rm, sc, o⟩ := s
  simp only at ha hk hn hc hd
  subst hk hn hc hd
  unfold byteBits
  iterate 7
    rw [frame_cons_of_next (clockServed_more .inp _ _ (by exact ha) (by exact hf) rfl (by simp))]
    rw [shift_more _ _ _ (by simp)]
    simp only [sawLine, Bool.and_true]
  rw [frame_one, clockServed_armed .inp _ _ (by exact ha) (by exact hf) rfl, shift_last _ _ _ (by rfl)]
  simp only [sawLine, Bool.and_true, eight_shifts, byteDone, List.append_assoc, List.cons_append, List.nil_append]

/-- A byte frame against a freshly armed `Arm(OUT, 8, b)`: the line carries `v AND b` and the engine is served (R80,
R86, R93). -/
theorem frame_out8 (v b : Byte) (s : State) (ha : s.h.armed = true) (hf : flagged s.t = false)
    (hk : s.t.kind = some .out) (hn : s.t.n = .eight) (hc : s.t.cnt = 8) (ho : s.t.out = b)
    (hd : s.t.drive = b.getLsbD 7) :
    frame (byteBits v) s = .next (serveEngine { s with
      t := byteDone .out (v &&& b) s.t, out := { s.out with line := s.out.line ++ byteBits (v &&& b) } }) := by
  obtain ⟨p, e, ⟨kind, n, cnt, out, sr, drive, startF, stopF, doneF, doneKind, doneN, doneData⟩, h, mem, sh, fl, rm, sc, o⟩ := s
  simp only at ha hk hn hc hd ho
  subst hk hn hc ho hd
  unfold byteBits
  iterate 7
    rw [frame_cons_of_next (clockServed_more .out _ _ (by exact ha) (by exact hf) rfl (by simp))]
    rw [shift_more _ _ _ (by simp)]
    simp only [sawLine]
  rw [frame_one, clockServed_armed .out _ _ (by exact ha) (by exact hf) rfl, shift_last _ _ _ (by rfl)]
  simp only [sawLine, BitVec.reduceSub, BitVec.reduceToNat, Nat.reduceSub, BitVec.ofNat_eq_ofNat,
    ← BitVec.getLsbD_and, eight_shifts, byteDone, List.append_assoc, List.cons_append, List.nil_append]

/-- No byte is received in the next `n` clocks: none is armed, or it needs more of them (R86, R91). -/
def FarFromByte (n : Nat) (t : Transport) : Prop :=
  t.kind = some .inp → t.n = .eight → n < t.cnt.toNat ∨ t.cnt = 0

/-- A clock that is answered with a state, its transfer and the engine's step after it (R86 to R88, R95). -/
theorem clockServed_cases {m : Bool} {s t : State} (h : clockServed m s = .next t) :
    ∃ v, t.out.line = s.out.line ++ [v] ∧
      ((s.h.armed = false ∨ s.t.kind = none) ∧ t = sawLine v s ∨
      (∃ dir, s.h.armed = true ∧ flagged s.t = false ∧ s.t.kind = some dir ∧ v = (m && s.t.drive) ∧ s.t.cnt ≠ 1 ∧
        t = sawLine v { s with t := shift dir m s.t }) ∨
      ∃ dir, s.h.armed = true ∧ flagged s.t = false ∧ s.t.kind = some dir ∧ v = (m && s.t.drive) ∧ s.t.cnt = 1 ∧
        t = serveEngine (sawLine v { s with t := shift dir m s.t })) := by
  obtain ⟨u, hu, rfl⟩ := clockServed_next h
  rcases busClock_cases m s with ⟨ha, e⟩ | ⟨-, -, e⟩ | ⟨-, hf, hk, e⟩ | ⟨dir, ha, hf, hk, e⟩ <;> rw [e] at hu <;> cases hu
  · exact ⟨m, by simp [(serveEngine_keeps _).line], .inl ⟨.inl ha, serveEngine_of_not_enabled _ (by simp [engineEnabled, engineLive, ha])⟩⟩
  · exact ⟨m, by simp [(serveEngine_keeps _).line], .inl ⟨.inr hk, serveEngine_of_not_enabled _ (by simp [engineEnabled, hf])⟩⟩
  · refine ⟨m && s.t.drive, by simp [(serveEngine_keeps _).line], .inr ?_⟩
    by_cases hc : s.t.cnt = 1
    · exact .inr ⟨dir, ha, hf, hk, rfl, hc, rfl⟩
    · refine .inl ⟨dir, ha, hf, hk, rfl, hc, serveEngine_of_not_enabled _ ?_⟩
      simp only [engineEnabled, sawLine_t, shift_more dir m s.t hc]
      simp only [flagged] at hf ⊢; simp [hf]

/-- The engine's step after the clock that completes a transfer: its event, where the engine is live (R86, R94). -/
theorem serve_completed (dir : Dir) (m v : Bool) (s : State) (hf : flagged s.t = false) (hc : s.t.cnt = 1) :
    serveEngine (sawLine v { s with t := shift dir m s.t }) =
      engineStep (doneEvent dir s.t.n) (shift dir m s.t).doneData (sawLine v { s with t := shift dir m s.t }) := by
  have hs : s.t.startF = false := by simp only [flagged, Bool.or_eq_false_iff] at hf; exact hf.1
  have hd : (shift dir m s.t).doneF = true := by rw [shift_last dir m s.t hc]
  by_cases hl : engineLive (sawLine v { s with t := shift dir m s.t }) = true
  · have he : engineEnabled (sawLine v { s with t := shift dir m s.t }) = true := by
      simp only [engineEnabled, hl, sawLine_t, flagged, hd]; simp
    rw [serveEngine, if_pos he]
    simp only [pendingKind, pendingData, sawLine_t, shift_startF, hs]
    rw [shift_last dir m s.t hc]; rfl
  · rw [Bool.not_eq_true] at hl
    rw [engineStep_of_not_live _ _ _ hl, serveEngine_of_not_enabled _ (by simp [engineEnabled, hl])]

/-- Clocks too few to complete a byte in: nothing is stored and busy is not raised (R86, R107). -/
theorem frame_far_from_byte (ms : List Bool) : ∀ s t : State, ms.length < 8 → FarFromByte ms.length s.t →
    frame ms s = .next t →
    t.mem = s.mem ∧ (t.e.busy = true → s.e.busy = true) ∧ s.out.acts <+: t.out.acts ∧ s.out.line <+: t.out.line := by
  induction ms with
  | nil => intro s t _ _ h; cases h; exact ⟨rfl, id, List.prefix_rfl, List.prefix_rfl⟩
  | cons m ms ih =>
    intro s t hlen hfar h
    simp only [List.length_cons] at hlen
    obtain ⟨u, hu, ht⟩ := frame_cons_next h
    obtain ⟨v, hv, c⟩ := clockServed_cases hu
    have hl : s.out.line <+: u.out.line := hv ▸ List.prefix_append _ _
    rcases c with ⟨-, rfl⟩ | ⟨dir, -, -, hk, -, hc, rfl⟩ | ⟨dir, -, hf, hk, -, hc, rfl⟩
    · obtain ⟨a, b, c, d⟩ := ih (sawLine v s) t (by omega) (fun hi hn => (hfar hi hn).imp_left (fun h => by simp only [List.length_cons] at h; exact Nat.lt_of_succ_lt h)) ht
      exact ⟨a, b, c, hl.trans d⟩
    · have hf' : FarFromByte ms.length (sawLine v { s with t := shift dir m s.t }).t := by
        rw [sawLine_t, shift_more dir m s.t hc]
        intro hi hn
        have := hfar hi hn
        simp only [List.length_cons] at this ⊢
        left
        bv_omega
      obtain ⟨a, b, c, d⟩ := ih _ t (by omega) hf' ht
      exact ⟨a, b, c, hl.trans d⟩
    · rw [serve_completed dir m v s hf hc] at *
      have hk8 : doneEvent dir s.t.n ≠ .in8 := by
        intro he
        have hd : dir = .inp ∧ s.t.n = .eight := by revert he; cases dir <;> cases s.t.n <;> simp [doneEvent]
        have := hfar (hd.1 ▸ hk) hd.2
        simp [hc] at this
      have hf' := fun hi hn => (engineStep_does (doneEvent dir s.t.n) (shift dir m s.t).doneData
        (sawLine v { s with t := shift dir m s.t })).arms (by rw [sawLine_t, shift_last dir m s.t hc]) hi hn
      obtain ⟨a, b, c, d⟩ := ih _ t (by omega) (fun hi hn => .inl (by rw [hf' hi hn]; simpa using by omega)) ht
      refine ⟨a.trans ((engineStep_does _ _ _).mem hk8), fun hb => ?_, (engineStep_does _ _ (sawLine v { s with t := shift dir m s.t })).acts.trans c, hl.trans d⟩
      by_contra hs
      exact hk8 ((engineStep_does _ _ _).busy (by simpa using hs) (b hb)).1

/-- A frame of at most eight clocks raises busy only by completing the byte armed in, which the engine, live in
ReceiveByte with the index inside the writable region, stores (R86, R94, R107). -/
theorem frame_raises_busy (ms : List Bool) : ∀ s t : State, ms.length ≤ 8 → frame ms s = .next t →
    s.e.busy = false → t.e.busy = true →
    engineLive s = true ∧ flagged s.t = false ∧ s.t.kind = some .inp ∧ s.t.n = .eight ∧ s.e.state = .receiveByte ∧
    s.e.index < s.h.wlen ∧ actCode .rx ∈ t.out.acts ∧
    ∃ line, t.out.line = s.out.line ++ line ∧
      t.mem = s.mem.write (waddr s) ((line.take s.t.cnt.toNat).foldl shiftIn s.t.sr) := by
  induction ms with
  | nil => intro s t _ h h0 h1; cases h; rw [h0] at h1; cases h1
  | cons m ms ih =>
    intro s t hlen h h0 h1
    simp only [List.length_cons] at hlen
    obtain ⟨u, hu, ht⟩ := frame_cons_next h
    obtain ⟨v, hv, c⟩ := clockServed_cases hu
    rcases c with ⟨hk, rfl⟩ | ⟨dir, -, hf, hk, hvm, hc, rfl⟩ | ⟨dir, ha, hf, hk, hvm, hc, rfl⟩
    · obtain ⟨a, -, b, -⟩ := ih _ t (by omega) ht h0 h1
      rcases hk with hk | hk
      · simp [engineLive, hk] at a
      · rw [sawLine_t, hk] at b; cases b
    · obtain ⟨a, b, c, d, e, f, g, line, hline, hmem⟩ := ih _ t (by omega) ht h0 h1
      rw [sawLine_t, shift_more dir m s.t hc] at c d
      refine ⟨a, hf, c, d, e, f, g, v :: line, by rw [hline, hv]; simp, ?_⟩
      by_cases hz : s.t.cnt = 0
      · have := frame_far_from_byte ms _ t (by omega) (fun _ _ => .inl (by
          rw [sawLine_t, shift_more dir m s.t hc, hz]; simp; omega)) ht
        rw [show (sawLine v { s with t := shift dir m s.t }).e.busy = false from h0] at this
        exact absurd (this.2.1 h1) (by simp)
      · rw [hmem, sawLine_t, shift_more dir m s.t hc]
        have hn : s.t.cnt.toNat = (s.t.cnt - 1).toNat + 1 := by bv_omega
        rw [hn, List.take_succ_cons, List.foldl_cons, ← hvm]; rfl
    · have hb : (shift dir m s.t).kind = none := by rw [shift_last dir m s.t hc]
      have hfar : FarFromByte ms.length (serveEngine (sawLine v { s with t := shift dir m s.t })).t := by
        rw [serve_completed dir m v s hf hc]
        exact fun hi hn => .inl (by rw [(engineStep_does _ _ _).arms (by exact hb) hi hn]; simpa using by omega)
      obtain ⟨hm, hbusy, hacts, l, hl⟩ := frame_far_from_byte ms _ t (by omega) hfar ht
      have hu1 := hbusy h1
      rw [serve_completed dir m v s hf hc] at hu1 hm hacts hl
      obtain ⟨hk8, hlive, hst, hi, hmem, hrx⟩ := (engineStep_does _ _ _).busy (by exact h0) hu1
      have hd : dir = .inp ∧ s.t.n = .eight := by revert hk8; cases dir <;> cases s.t.n <;> simp [doneEvent]
      refine ⟨hlive, hf, hd.1 ▸ hk, hd.2, hst, hi, hacts.subset hrx, v :: l, ?_, ?_⟩
      · rw [← hl, (engineStep_keeps _ _ _).line]; simp
      · rw [hm, hmem, hc, shift_last dir m s.t hc, hd.2, ← hvm]; rfl

end Sys2Proof.Machine
end

