-- ==== Sys2Proof/Laws/Commands.lean ====
section
/-! SUPPORT. What a host command, a host memory action and the commit consumer can do, each said once. -/

namespace Sys2Proof.Machine

/-- Everything a registration can do: be refused, or write its descriptor when the region fits and no session is in
flight (R120, R121). -/
theorem registration_cases (f : Addr → Byte → HostPort → HostPort) (null : Bool) (len : Byte) (base : Addr) (s : State) :
    (∃ r, regRefusal s (regBase null base) (regLen null len) = some r ∧ registration f null len base s = refuse r s) ∨
    (s.p.regionFits (regBase null base) (regLen null len) = true ∧ inFlight s = false ∧
      registration f null len base s = { s with h := f (regBase null base) (regLen null len) s.h }) := by
  unfold registration
  cases hr : regRefusal s (regBase null base) (regLen null len) with
  | some r => exact .inl ⟨r, rfl, rfl⟩
  | none =>
    refine .inr ⟨?_, ?_, rfl⟩ <;> unfold regRefusal at hr <;> split_ifs at hr with h1 h2 h3
    · simp only [Params.regionFits, Bool.and_eq_true, decide_eq_true_eq]; omega
    · simpa using h3

/-- Everything `h.st` can answer (R54, R118). -/
theorem hostStore_cases (a : Addr) (v : Byte) (s : State) :
    (2 ^ s.p.addrWidth ≤ a.toNat ∧ hostStore a v s = .fault (.noSuchAddress a)) ∨
    (a.toNat < 2 ^ s.p.addrWidth ∧ inWb s a.toNat = true ∧ hostStore a v s = .refused .hostStoreToW) ∨
    (a.toNat < 2 ^ s.p.addrWidth ∧ inWb s a.toNat = false ∧
      hostStore a v s = .next { s with mem := s.mem.write a.toNat v }) := by
  by_cases h : 2 ^ s.p.addrWidth ≤ a.toNat
  · exact .inl ⟨h, by simp [hostStore, h]⟩
  · cases hw : inWb s a.toNat <;> simp [hostStore, h, hw] <;> omega

/-- Everything `h.ld` can answer (R118). -/
theorem hostLoad_cases (a : Addr) (s : State) :
    (2 ^ s.p.addrWidth ≤ a.toNat ∧ hostLoad a s = .fault (.noSuchAddress a)) ∨
    (a.toNat < 2 ^ s.p.addrWidth ∧
      hostLoad a s = .next { s with out := { s.out with loaded := some (s.mem.read a.toNat) } }) := by
  by_cases h : 2 ^ s.p.addrWidth ≤ a.toNat
  · exact .inl ⟨h, by simp [hostLoad, h]⟩
  · exact .inr ⟨by omega, by simp [hostLoad, h]⟩

/-- Everything `c.tick` can do: the query alone, or the query and then the commit (R128). -/
theorem commitTick_cases (s : State) :
    (commits (queryBusy s) = false ∧ commitTick s = queryBusy s) ∨
    (commits (queryBusy s) = true ∧ commitTick s = { queryBusy s with
      shadow := payload s
      mem := s.mem.write (regionAddr s.p s.h.wbase 0) (controlWord s &&& ~~~s.p.commitMask) }) := by
  cases hc : commits (queryBusy s) with
  | false => exact .inl ⟨rfl, by simp [commitTick, hc]⟩
  | true => exact .inr ⟨rfl, by simp [commitTick, hc, payload, controlWord]⟩

/-- Everything a source-level registration call can do (R120, R132). -/
theorem hostRegister_cases (writable : Bool) (buffer : Option Addr) (length : Nat) (s : State) :
    (∃ base, buffer = some base ∧ Config.lenMax < length ∧ hostRegister writable buffer length s = refuse .length s) ∨
    ∃ null len base, hostRegister writable buffer length s
      = registration (if writable then setW else setR) null len base s := by
  cases buffer with
  | none => exact .inr ⟨true, 0, 0, rfl⟩
  | some base =>
    by_cases h : Config.lenMax < length
    · exact .inl ⟨base, rfl, h, by simp [hostRegister, h]⟩
    · exact .inr ⟨false, BitVec.ofNat 8 length, base, by simp [hostRegister, h]⟩

/-- A null region fits any address space (R43). -/
theorem nullRegion_fits (p : Params) : p.regionFits 0 0 = true := by
  simp [Params.regionFits]

end Sys2Proof.Machine
end

