-- ==== Sys2Proof/Laws/Words.lean ====
section
/-! SUPPORT. The bits of the words the spec builds by concatenation (R62, R71, R72, R74, R75), bit by bit and field by
field, so that no later proof unfolds a concatenation. -/

namespace Sys2Proof

theorem getLsbD_wordOf12 (k : BitVec 4) (d : Byte) (i : Nat) :
    (wordOf12 k d).getLsbD i = if i < 8 then d.getLsbD i else k.getLsbD (i - 8) := by
  have h1 := BitVec.getLsbD_append (x := 0#20 ++ k) (y := d) (i := i)
  have h2 := BitVec.getLsbD_append (x := 0#20) (y := k) (i := i - 8)
  refine h1.trans ?_
  rw [h2]
  split_ifs with h3 h4
  · rfl
  · rfl
  · rw [BitVec.getLsbD_of_ge k _ (by omega)]; simp

/-- The data of an event or command word (R71, R72). -/
theorem wordOf12_data (k : BitVec 4) (d : Byte) : (wordOf12 k d).extractLsb' 0 8 = d := by
  apply BitVec.eq_of_getLsbD_eq
  intro i hi
  rw [BitVec.getLsbD_extractLsb', Nat.zero_add, getLsbD_wordOf12, if_pos hi]
  simp [hi]

/-- The kind of an event word, or the command of a command word (R71, R72). -/
theorem wordOf12_kind (k : BitVec 4) (d : Byte) : (wordOf12 k d).extractLsb' 8 4 = k := by
  apply BitVec.eq_of_getLsbD_eq
  intro i hi
  rw [BitVec.getLsbD_extractLsb', getLsbD_wordOf12, if_neg (by omega), Nat.add_sub_cancel_left]
  simp [hi]

/-- The twelve bits of an event or command word. -/
theorem wordOf12_all (k : BitVec 4) (d : Byte) : (wordOf12 k d).extractLsb' 0 12 = k ++ d := by
  apply BitVec.eq_of_getLsbD_eq
  intro i hi
  have h := BitVec.getLsbD_append (x := k) (y := d) (i := i)
  rw [BitVec.getLsbD_extractLsb', Nat.zero_add, getLsbD_wordOf12]
  refine Eq.trans ?_ h.symm
  simp [hi]

theorem toNat_lt_of_getLsbD {w : Word} {n : Nat} (h : ∀ i, n ≤ i → w.getLsbD i = false) : w.toNat < 2 ^ n := by
  apply Nat.lt_pow_two_of_testBit
  intro i hi
  rw [BitVec.testBit_toNat]
  exact h i hi

theorem wordOf12_fits (k : BitVec 4) (d : Byte) : (wordOf12 k d).toNat < 2 ^ 12 :=
  toNat_lt_of_getLsbD fun i hi => by
    rw [getLsbD_wordOf12, if_neg (by omega)]
    exact BitVec.getLsbD_of_ge _ _ (by omega)

theorem bitByte_high (b : Bool) : (bitByte b).extractLsb' 1 7 = 0 := by cases b <;> decide

theorem bitByte_low (b : Bool) : (bitByte b).getLsbD 0 = b := by cases b <;> decide

theorem bitByte_eq (b : Bool) : bitByte b = if b then 1 else 0 := by cases b <;> decide

theorem getLsbD_op28 (op : BitVec 4) (x : BitVec 28) (i : Nat) :
    (op ++ x : Word).getLsbD i = if i < 28 then x.getLsbD i else op.getLsbD (i - 28) :=
  BitVec.getLsbD_append (x := op) (y := x) (i := i)

/-- The op of a host command word (R74). -/
theorem op28_op (op : BitVec 4) (x : BitVec 28) : (op ++ x : Word).extractLsb' 28 4 = op := by
  apply BitVec.eq_of_getLsbD_eq
  intro i hi
  rw [BitVec.getLsbD_extractLsb', getLsbD_op28, if_neg (by omega), Nat.add_sub_cancel_left]
  simp [hi]

/-- The low 28 bits of a host command word (R74). -/
theorem op28_low (op : BitVec 4) (x : BitVec 28) : (op ++ x : Word).extractLsb' 0 28 = x := by
  apply BitVec.eq_of_getLsbD_eq
  intro i hi
  rw [BitVec.getLsbD_extractLsb', Nat.zero_add, getLsbD_op28, if_pos hi]
  simp [hi]

/-- A registration word with the field `z` in the bits that must be zero (R74). -/
theorem getLsbD_regWord (op : BitVec 4) (null : Bool) (z : BitVec 3) (len : Byte) (base : Addr) (i : Nat) :
    (op ++ BitVec.ofBool null ++ z ++ len ++ base : Word).getLsbD i =
      if i < 16 then base.getLsbD i else if i < 24 then len.getLsbD (i - 16)
      else if i < 27 then z.getLsbD (i - 24) else if i < 28 then null else op.getLsbD (i - 28) := by
  have h1 := BitVec.getLsbD_append (x := op ++ BitVec.ofBool null ++ z ++ len) (y := base) (i := i)
  have h2 := BitVec.getLsbD_append (x := op ++ BitVec.ofBool null ++ z) (y := len) (i := i - 16)
  have h3 := BitVec.getLsbD_append (x := op ++ BitVec.ofBool null) (y := z) (i := i - 16 - 8)
  have h4 := BitVec.getLsbD_append (x := op) (y := BitVec.ofBool null) (i := i - 16 - 8 - 3)
  refine h1.trans ?_
  rw [h2, h3, h4]
  split_ifs with a b c d e f g h <;> first | rfl | omega | skip
  · rw [show i - 16 - 8 - 3 = 0 by omega]; simp

theorem regWord_op (op : BitVec 4) (null : Bool) (z : BitVec 3) (len : Byte) (base : Addr) :
    (op ++ BitVec.ofBool null ++ z ++ len ++ base : Word).extractLsb' 28 4 = op := by
  apply BitVec.eq_of_getLsbD_eq
  intro i hi
  rw [BitVec.getLsbD_extractLsb', getLsbD_regWord, if_neg (by omega), if_neg (by omega), if_neg (by omega),
    if_neg (by omega), Nat.add_sub_cancel_left]
  simp [hi]

theorem regWord_zero (op : BitVec 4) (null : Bool) (z : BitVec 3) (len : Byte) (base : Addr) :
    (op ++ BitVec.ofBool null ++ z ++ len ++ base : Word).extractLsb' 24 3 = z := by
  apply BitVec.eq_of_getLsbD_eq
  intro i hi
  rw [BitVec.getLsbD_extractLsb', getLsbD_regWord, if_neg (by omega), if_neg (by omega), if_pos (by omega),
    Nat.add_sub_cancel_left]
  simp [hi]

theorem regWord_null (op : BitVec 4) (null : Bool) (z : BitVec 3) (len : Byte) (base : Addr) :
    (op ++ BitVec.ofBool null ++ z ++ len ++ base : Word).getLsbD 27 = null := by
  rw [getLsbD_regWord]; simp

theorem regWord_len (op : BitVec 4) (null : Bool) (z : BitVec 3) (len : Byte) (base : Addr) :
    (op ++ BitVec.ofBool null ++ z ++ len ++ base : Word).extractLsb' 16 8 = len := by
  apply BitVec.eq_of_getLsbD_eq
  intro i hi
  rw [BitVec.getLsbD_extractLsb', getLsbD_regWord, if_neg (by omega), if_pos (by omega), Nat.add_sub_cancel_left]
  simp [hi]

theorem regWord_base (op : BitVec 4) (null : Bool) (z : BitVec 3) (len : Byte) (base : Addr) :
    (op ++ BitVec.ofBool null ++ z ++ len ++ base : Word).extractLsb' 0 16 = base := by
  apply BitVec.eq_of_getLsbD_eq
  intro i hi
  rw [BitVec.getLsbD_extractLsb', getLsbD_regWord, Nat.zero_add, if_pos hi]
  simp [hi]

theorem getLsbD_byteWord (v : Byte) (i : Nat) : (0#24 ++ v : Word).getLsbD i = v.getLsbD i := by
  have h := BitVec.getLsbD_append (x := 0#24) (y := v) (i := i)
  refine h.trans ?_
  split_ifs with hi
  · rfl
  · rw [BitVec.getLsbD_of_ge v _ (by omega)]; simp

theorem byteWord_fits (v : Byte) : (0#24 ++ v : Word).toNat < 2 ^ 8 :=
  toNat_lt_of_getLsbD fun i hi => by
    rw [getLsbD_byteWord]
    exact BitVec.getLsbD_of_ge _ _ hi

theorem byteWord_byte (v : Byte) : (0#24 ++ v : Word).extractLsb' 0 8 = v := by
  apply BitVec.eq_of_getLsbD_eq
  intro i hi
  rw [BitVec.getLsbD_extractLsb', Nat.zero_add, getLsbD_byteWord]
  simp [hi]

theorem getLsbD_addrWord (a : BitVec 7) (d : Bool) (i : Nat) :
    (0#24 ++ a ++ BitVec.ofBool d : Word).getLsbD i = if i = 0 then d else a.getLsbD (i - 1) := by
  have h1 := BitVec.getLsbD_append (x := 0#24 ++ a) (y := BitVec.ofBool d) (i := i)
  have h2 := BitVec.getLsbD_append (x := 0#24) (y := a) (i := i - 1)
  refine h1.trans ?_
  rw [h2]
  by_cases h0 : i = 0
  · subst h0; simp
  · rw [if_neg (by omega), if_neg h0]
    split_ifs
    · rfl
    · rw [BitVec.getLsbD_of_ge a _ (by omega)]; simp

theorem addrWord_fits (a : BitVec 7) (d : Bool) : (0#24 ++ a ++ BitVec.ofBool d : Word).toNat < 2 ^ 8 :=
  toNat_lt_of_getLsbD fun i hi => by
    rw [getLsbD_addrWord, if_neg (by omega)]
    exact BitVec.getLsbD_of_ge _ _ (by omega)

theorem addrWord_addr (a : BitVec 7) (d : Bool) : (0#24 ++ a ++ BitVec.ofBool d : Word).extractLsb' 1 7 = a := by
  apply BitVec.eq_of_getLsbD_eq
  intro i hi
  rw [BitVec.getLsbD_extractLsb', getLsbD_addrWord, if_neg (by omega), Nat.add_sub_cancel_left]
  simp [hi]

theorem addrWord_dir (a : BitVec 7) (d : Bool) : (0#24 ++ a ++ BitVec.ofBool d : Word).getLsbD 0 = d := by
  rw [getLsbD_addrWord, if_pos rfl]

end Sys2Proof
end

