-- ==== Sys2Proof/Laws/PerInstr.lean ====
section
/-! SUPPORT. One lemma per constructor of Instr for each family of LAWS.json: an instruction's word has no bit outside
its format. -/

namespace Sys2Proof.Laws.Fits

/-- The word an instruction encodes to fits its format (R60). -/
def Statement (i : Instr) : Prop := i.format.fits (encode i) = true

theorem clk0 : Statement .clk0 := by unfold Statement; decide
theorem clk1 : Statement .clk1 := by unfold Statement; decide
theorem start : Statement .start := by unfold Statement; decide
theorem stop : Statement .stop := by unfold Statement; decide
theorem addr (a : BitVec 7) (d : Bool) : Statement (.addr a d) := decide_eq_true (Sys2Proof.addrWord_fits a d)
theorem index (i : Byte) : Statement (.index i) := decide_eq_true (Sys2Proof.byteWord_fits i)
theorem dataW (v : Byte) : Statement (.dataW v) := decide_eq_true (Sys2Proof.byteWord_fits v)
theorem dataR (v : Byte) : Statement (.dataR v) := decide_eq_true (Sys2Proof.byteWord_fits v)
theorem ack : Statement .ack := by unfold Statement; decide
theorem nack : Statement .nack := by unfold Statement; decide
theorem evStart : Statement .evStart := by unfold Statement; decide
theorem evDoneIn1 (b : Bool) : Statement (.evDoneIn1 b) := decide_eq_true (Sys2Proof.wordOf12_fits _ _)
theorem evDoneIn8 (d : Byte) : Statement (.evDoneIn8 d) := decide_eq_true (Sys2Proof.wordOf12_fits _ _)
theorem evDoneOut1 (b : Bool) : Statement (.evDoneOut1 b) := decide_eq_true (Sys2Proof.wordOf12_fits _ _)
theorem evDoneOut8 (d : Byte) : Statement (.evDoneOut8 d) := decide_eq_true (Sys2Proof.wordOf12_fits _ _)
theorem tDisarm : Statement .tDisarm := by unfold Statement; decide
theorem tIn1 : Statement .tIn1 := by unfold Statement; decide
theorem tIn8 : Statement .tIn8 := by unfold Statement; decide
theorem tOut1 (b : Bool) : Statement (.tOut1 b) := decide_eq_true (Sys2Proof.wordOf12_fits _ _)
theorem tOut8 (v : Byte) : Statement (.tOut8 v) := decide_eq_true (Sys2Proof.wordOf12_fits _ _)
theorem nop : Statement .nop := by unfold Statement; decide
theorem regw (null : Bool) (len : Byte) (base : Addr) : Statement (.regw null len base) :=
  decide_eq_true (BitVec.isLt _)
theorem regr (null : Bool) (len : Byte) (base : Addr) : Statement (.regr null len base) :=
  decide_eq_true (BitVec.isLt _)
theorem arm : Statement .arm := by unfold Statement; decide
theorem qbusy : Statement .qbusy := by unfold Statement; decide
theorem status : Statement .status := by unfold Statement; decide

end Sys2Proof.Laws.Fits
end

