-- ==== Sys2Proof/Laws/Step.lean ====
section
/-! SUPPORT. What a step can do, said once. -/

namespace Sys2Proof.Machine

/-- Everything a step can be: the engine's step (at the end of the script, or before bus activity), or the next item. -/
theorem step_cases (s : State) :
    (s.script = [] ∧ step s = .next (serveEngine (beginStep s))) ∨
    (∃ it rest, s.script = it :: rest ∧ itemIsBus it = true ∧ engineEnabled s = true ∧
      step s = .next (serveEngine (beginStep s))) ∨
    (∃ it rest, s.script = it :: rest ∧ (itemIsBus it && engineEnabled s) = false ∧
      step s = runItem it (takeItem rest s)) := by
  cases hs : s.script with
  | nil => exact .inl ⟨rfl, by simp [step, stepMachine, hs]⟩
  | cons it rest =>
    by_cases hb : (itemIsBus it && engineEnabled s) = true
    · have := hb
      rw [Bool.and_eq_true] at this
      exact .inr (.inl ⟨it, rest, rfl, this.1, this.2, by simp only [step, stepMachine, hs]; rw [if_pos hb]⟩)
    · refine .inr (.inr ⟨it, rest, rfl, by simpa using hb, ?_⟩)
      simp only [step, stepMachine, hs]; rw [if_neg hb]

/-- Everything running a word can be: the instruction it decodes to, or its rejection. -/
theorem runWord_cases (f : Format) (w : Word) (s : State) :
    (∃ i, decode f w = .ok i ∧ runWord f w s = exec i s) ∨
    ∃ err, decode f w = .error err ∧ runWord f w s = rejected err s := by
  unfold runWord
  cases decode f w with
  | ok i => exact .inl ⟨i, rfl, rfl⟩
  | error err => exact .inr ⟨err, rfl, rfl⟩

/-- Beginning a step changes nothing that enables the engine. -/
theorem beginStep_engineEnabled (s : State) : engineEnabled (beginStep s) = engineEnabled s := rfl

/-- An input that is not bus activity runs at once, with or without an event pending (R95). -/
theorem step_of_item {s : State} {it : Item} {rest : List Item} (hs : s.script = it :: rest)
    (hb : itemIsBus it = false) : step s = runItem it (takeItem rest s) := by
  simp [step, stepMachine, hs, hb]

/-- A run of one step more. -/
theorem run_succ (M : Host.Core) (k : Nat) (s : M.State) :
    M.run (k + 1) s = (match M.step s with
      | .next t => M.run k t
      | .fault r => .fault r
      | .refused r => .refused r) := rfl

end Sys2Proof.Machine
end

