-- ==== Sys2Proof/Tests/Slice0.lean ====
section
/-! SUPPORT. Tests: ill-formed terms, words spelled out from the spec, vectors of spec/95_test_vectors.md, and for every
statement with hypotheses a state and operands that meet them. Expected values are the spec's. -/

namespace Sys2Proof.Tests

open Sys2Proof Sys2Proof.Machine Sys2Proof.Safety Sys2Proof.Claims

/-- The parameters of the common setup of spec/95, with `READ_WITHOUT_INDEX` true. -/
def params : Params where
  checksumSeed := 0xAA#8
  readWithoutIndex := true
  healScope := .wide
  resetClearsHaveIndex := false
  addrWidth := 16
  commitMask := 0x07#8
  commitMagic := 0x05#8

/-- The common setup of spec/95: both regions at 0x0100, armed, `SLAVE_ADDR` 0x40. -/
def common : State :=
  { State.powerOn params 0x40#7 [(0x101, 0x11#8), (0x102, 0x22#8), (0x103, 0x33#8), (0x104, 0x5A#8)] [] [] with
    h := { wbase := 0x0100#16, wlen := 4, rbase := 0x0100#16, rlen := 5, armed := true } }

/-- The common setup in an engine state, at an index, with a busy flag. -/
def at_ (x : EState) (index : Byte := 0) (busy : Bool := false) : State :=
  { common with e := { common.e with state := x, index := index, busy := busy } }

/-- The common setup with a transport. -/
def withT (s : State) (f : Transport → Transport) : State := { s with t := f s.t }

/-- The state with inputs to come. -/
def withScript (s : State) (is : List Item) : State := { s with script := is }

/-- A field of the next state, if there is one. -/
def got {α : Type} (o : Host.Outcome State Fault Refusal) (f : State → α) : Option α :=
  match o with
  | .next t => some (f t)
  | .fault _ => none
  | .refused _ => none

/-- The refusal, if there is one. -/
def refusedBy (o : Host.Outcome State Fault Refusal) : Option Refusal :=
  match o with
  | .refused r => some r
  | .next _ => none
  | .fault _ => none

/-! ### Well-formedness -/

/-- `ADDR_WIDTH` is 1 to 16 (R8). -/
theorem test_width_zero_refused : ({ params with addrWidth := 0 } : Params).wf = false := by decide
theorem test_width_seventeen_refused : ({ params with addrWidth := 17 } : Params).wf = false := by decide
theorem test_width_bounds_accepted :
    ({ params with addrWidth := 1 } : Params).wf = true ∧ ({ params with addrWidth := 16 } : Params).wf = true := by decide
/-- Section 2.6: with `ADDR_WIDTH = 12`, base 0x1000 is refused. -/
theorem test_base_too_high_refused : (Instr.regw false 1 0x1000#16).wf { params with addrWidth := 12 } = false := by decide
/-- H8: 0xFF02 + 255 is more than 2^16. -/
theorem test_region_too_long_refused : (Instr.regr false 0xFF#8 0xFF02#16).wf params = false := by decide
theorem test_region_to_the_end_accepted : (Instr.regr false 0xFF#8 0xFF01#16).wf params = true := by decide
/-- A word wider than its format is no word of it (R60). -/
theorem test_word_too_wide_refused :
    Format.evWord.fits 0x1000#32 = false ∧ decode .evWord 0x1100#32 = .error .tooWide := by decide

/-! ### Decoding: words spelled out bit by bit from the spec -/

/-- R70. -/
theorem test_decode_symbols :
    decode .busSym 0b00#32 = .ok .clk0 ∧ decode .busSym 0b01#32 = .ok .clk1 ∧
    decode .busSym 0b10#32 = .ok .start ∧ decode .busSym 0b11#32 = .ok .stop := by decide
/-- A1 to A8: address bits 7 to 1, direction bit 0. -/
theorem test_decode_address :
    decode .wireAddr 0b10000001#32 = .ok (.addr 0x40#7 true) ∧ decode .wireAddr 0x82#32 = .ok (.addr 0x41#7 false) ∧
    decode .wireAddr 0x00#32 = .ok (.addr 0#7 false) ∧ decode .wireAddr 0xFF#32 = .ok (.addr 0x7F#7 true) ∧
    decode .wireAddr 0xF6#32 = .ok (.addr 0x7B#7 false) := by decide
/-- R65, R66, R67, R64. -/
theorem test_decode_bytes :
    decode .wireIndex 0x07#32 = .ok (.index 7) ∧ decode .wireData 0xCC#32 = .ok (.dataW 0xCC#8) ∧
    decode .wireTx 0x9A#32 = .ok (.dataR 0x9A#8) ∧ decode .wireAck 0#32 = .ok .ack ∧
    decode .wireAck 1#32 = .ok .nack := by decide
/-- W1 to W6. -/
theorem test_decode_events :
    decode .evWord 0x100#32 = .ok .evStart ∧ decode .evWord 0x200#32 = .ok (.evDoneIn1 false) ∧
    decode .evWord 0x201#32 = .ok (.evDoneIn1 true) ∧ decode .evWord 0x380#32 = .ok (.evDoneIn8 0x80#8) ∧
    decode .evWord 0x400#32 = .ok (.evDoneOut1 false) ∧ decode .evWord 0x533#32 = .ok (.evDoneOut8 0x33#8) := by decide
/-- W7 to W10. -/
theorem test_decode_commands :
    decode .tcmdWord 0x000#32 = .ok .tDisarm ∧ decode .tcmdWord 0x100#32 = .ok .tIn1 ∧
    decode .tcmdWord 0x200#32 = .ok .tIn8 ∧ decode .tcmdWord 0x300#32 = .ok (.tOut1 false) ∧
    decode .tcmdWord 0x301#32 = .ok (.tOut1 true) ∧ decode .tcmdWord 0x433#32 = .ok (.tOut8 0x33#8) := by decide
/-- The host words of H1 to H16. -/
theorem test_decode_host :
    decode .hcmdWord 0x00000000#32 = .ok .nop ∧ decode .hcmdWord 0x10040100#32 = .ok (.regw false 4 0x0100#16) ∧
    decode .hcmdWord 0x20050100#32 = .ok (.regr false 5 0x0100#16) ∧
    decode .hcmdWord 0x18FF1234#32 = .ok (.regw true 0xFF#8 0x1234#16) ∧ decode .hcmdWord 0x30000000#32 = .ok .arm ∧
    decode .hcmdWord 0x40000000#32 = .ok .qbusy ∧ decode .hcmdWord 0x50000000#32 = .ok .status := by decide
/-- H2, H6, H13: refused by name. -/
theorem test_decode_host_refused :
    decode .hcmdWord 0x00000001#32 = .error .reservedField ∧ decode .hcmdWord 0x11040100#32 = .error .reservedField ∧
    decode .hcmdWord 0x60000000#32 = .error .reservedOp := by decide
/-- R71, R72: reserved kinds and commands; data that a row does not admit. -/
theorem test_decode_reserved :
    decode .evWord 0x000#32 = .error (.reservedEvent 0x000#12) ∧ decode .evWord 0xF12#32 = .error (.reservedEvent 0xF12#12) ∧
    decode .tcmdWord 0x5AB#32 = .error (.reservedCommand 0x5AB#12) ∧ decode .evWord 0x101#32 = .error (.looseEvent 0x101#12) ∧
    decode .tcmdWord 0x302#32 = .error (.looseCommand 0x302#12) := by decide
/-- The table's words are read in the first of their width's formats that admits them. -/
theorem test_table_words :
    decodeTableWord 8 0b11 = some .stop ∧ decodeTableWord 8 0x80 = some (.addr 0x40#7 false) ∧
    decodeTableWord 16 0x500 = some (.evDoneOut8 0) ∧ decodeTableWord 16 0x433 = some (.tOut8 0x33#8) ∧
    decodeTableWord 16 0 = some .tDisarm ∧ decodeTableWord 32 0x40000000 = some .qbusy := by decide
/-- A word placed after reset is what the next step runs. -/
theorem test_fetch_after_reset :
    got (step (State.reset.withFetchWord 32 0x30000000)) (fun t => t.h.armed) = some true := by decide

/-! ### Script notation -/

/-- P1: the first ten symbols of its script are 10 01 00 00 00 00 00 00 00 01. -/
theorem test_pseudo_expansion :
    (scriptWRITE 0x40#7 0 [0x05#8]).take 10
      = unpackScript 10 (0b10 + 0b01 * 4 + 0b01 * 4 ^ 9) := by decide
/-- R79: `READ 2` is S, nine clocks of ADDRR, nine of RB ACK, nine of RB NACK, P. -/
theorem test_read_expansion :
    (scriptREAD 0x40#7 2).length = 29 ∧ (scriptREAD 0x40#7 2)[18]? = some (.word .busSym 0b00#32) ∧
    (scriptREAD 0x40#7 2)[27]? = some (.word .busSym 0b01#32) := by decide
/-- R85: start, a 1, a 0, stop. -/
theorem test_samples :
    symbolsOfSamples (true, true) none
      [(true, false), (false, false), (false, true), (true, true), (false, true), (false, false), (true, false),
       (false, false), (true, false), (true, true)] = [.start, .clk1, .clk0, .stop] := by decide

/-! ### The bus (section 2.3) -/

/-- T5. -/
theorem test_clk0_samples_an_ack :
    got (exec .clk0 (withT common armIn1)) (fun t => (t.t.doneF, t.t.doneKind, t.t.doneN, t.t.doneData))
      = some (true, .inp, .one, 0x00#8) := by decide
/-- T3. -/
theorem test_clk0_nothing_armed :
    got (exec .clk0 common) (fun t => (t.t == common.t, t.out.line)) = some (true, [false]) := by decide
/-- T6: the ACK the block drives is read as 0, and the line is then released. -/
theorem test_clk1_reads_the_ack :
    got (exec .clk1 (withT common (armOut1 false))) (fun t => (t.out.line, t.t.drive, t.t.doneData))
      = some ([false], true, 0x00#8) := by decide
/-- T8, its first bits: 0xC3 is sent most significant first. -/
theorem test_clk1_reads_bit_seven :
    got (exec .clk1 (withT common (armOut8 0x40#8))) (fun t => (t.out.line, t.t.drive, t.t.cnt))
      = some ([false], true, 7#4) := by decide
/-- T12. -/
theorem test_start_abandons :
    got (exec .start (withT common (fun t => { armOut8 0xF0#8 t with cnt := 6, drive := true })))
      (fun t => (t.t.startF, t.t.kind, t.t.drive)) = some (true, none, true) := by decide
/-- T14 and T11. -/
theorem test_no_such_moves :
    refusedBy (exec .start (withT common (fun t => { t with doneF := true }))) = some .flagPending ∧
    refusedBy (exec .stop (withT common (armOut8 0x00#8))) = some .lineHeldLow := by decide
/-- T10. -/
theorem test_stop_drops_a_partial_byte :
    got (exec .stop (withT common (fun t => { armIn8 t with cnt := 5 }))) (fun t => (t.t.stopF, t.t.kind, t.t.cnt))
      = some (true, none, 0#4) := by decide
/-- T1. -/
theorem test_unarmed_start :
    got (exec .start (State.powerOn params 0 [] [] [])) (fun t => t.t.startF) = some false := by decide

/-! ### Wire frames (A1, E11, E12, P2) -/

/-- A4: a mismatch latches the direction, and NACK is driven. -/
theorem test_addr_mismatch :
    got (exec (.addr 0x41#7 true) (withT (at_ .addressReceived) armIn8)) (fun t => (t.e.state, t.e.direction, t.out.cmds))
      = some (.nackDone, true, [0x301#12]) := by decide
/-- P2 step 1: the index byte. -/
theorem test_index_frame :
    got (exec (.index 3) (withT (at_ .receiveIndexByte) armIn8)) (fun t => (t.e.index, t.e.haveIndex, t.t.drive))
      = some (3, true, false) := by decide
/-- P1 step 4: the data byte. -/
theorem test_data_frame :
    got (exec (.dataW 0x05#8) (withT (at_ .receiveByte) armIn8)) (fun t => (t.mem.read 0x100, t.e.index, t.out.acts))
      = some (0x05#8, 1, [0b01#2]) := by decide
/-- P2 step 4: the master reads 0x33, and its acknowledge is armed. -/
theorem test_read_frame :
    got (exec (.dataR 0x33#8) (withT (at_ .ackSent 4) (armOut8 0x33#8))) (fun t => (t.out.line, t.out.cmds))
      = some ([false, false, true, true, false, false, true, true], [0x100#12]) := by decide
/-- P2 step 5: ACK, then 0x5A with checksum 0x99 to 0xC3. -/
theorem test_ack_frame :
    got (exec .ack (withT { at_ .ackSent 4 with e := { (at_ .ackSent 4).e with checksum := 0x99#8 } } armIn1))
      (fun t => (t.e.index, t.e.checksum, t.out.cmds)) = some (5, 0xC3#8, [0x45A#12]) := by decide
/-- P2 step 8. -/
theorem test_nack_frame :
    got (exec .nack (withT (at_ .ackSent 5) armIn1)) (fun t => (t.e.state, t.t.drive)) = some (.idle, true) := by decide

/-! ### Engine steps (section 2.4) -/

/-- E2. -/
theorem test_E2 :
    got (exec .evStart { at_ .receiveByte 0 true with
        e := { (at_ .receiveByte 0 true).e with checksum := 0x99#8 }, t := { common.t with stopF := true } })
      (fun t => (t.e.state, t.e.busy, t.e.checksum, t.t.stopF, t.out.cmds))
      = some (.addressReceived, false, 0xAA#8, false, [0x000#12, 0x200#12]) := by decide
/-- E3, and E28: a transient code faults. -/
theorem test_E3_E28 :
    got (exec .evStart (at_ .addressReceived 0 true)) (fun t => (t.e.busy, t.out.cmds)) = some (true, [0x200#12]) ∧
    got (exec .evStart (at_ .ackOrNack)) (fun t => t.fault)
      = some (some { reason := .badState, state := 3#4, ev := 0x100#12 }) := by decide
/-- E7 and E8: a read with no index, by the policy. -/
theorem test_E7_E8 :
    got (exec (.evDoneIn8 0x81#8) (at_ .addressReceived 9)) (fun t => (t.e.state, t.e.index, t.e.haveIndex, t.out.cmds))
      = some (.transmitByte, 0, true, [0x300#12]) ∧
    got (exec (.evDoneIn8 0x81#8) { at_ .addressReceived 9 with p := { params with readWithoutIndex := false } })
      (fun t => (t.e.state, t.e.index, t.e.haveIndex, t.out.cmds)) = some (.nackDone, 9, false, [0x301#12]) := by decide
/-- E12, E13, E15 and E16: the last byte of the region, the byte past it, and the top of memory. -/
theorem test_E12_E16 :
    got (exec (.evDoneIn8 0xCC#8) (at_ .receiveByte 3)) (fun t => (t.mem.read 0x103, t.e.index, t.e.busy, t.out.acts))
      = some (0xCC#8, 4, true, [0b01#2]) ∧
    got (exec (.evDoneIn8 0xDD#8) (at_ .receiveByte 4 true)) (fun t => (t.e.state, t.mem == common.mem, t.out.cmds))
      = some (.nackDone, true, [0x301#12]) ∧
    got (exec (.evDoneIn8 0x12#8) { at_ .receiveByte 0xFF#8 with h := { common.h with wlen := 255 } }) (fun t => t.e.state)
      = some .nackDone ∧
    got (exec (.evDoneIn8 0x12#8) { at_ .receiveByte 0xFE#8 with h := { common.h with wbase := 0xFF01#16, wlen := 255 } })
      (fun t => (t.mem.read 0xFFFF, t.e.index)) = some (0x12#8, 0xFF#8) := by decide
/-- E10 and E18. -/
theorem test_E10_E18 :
    got (exec (.evDoneOut1 false) (at_ .receiveIndexByte)) (fun t => (t.e.state, t.out.cmds))
      = some (.receiveIndexByte, [0x200#12]) ∧
    got (exec (.evDoneOut1 false) (at_ .transmitByte 3)) (fun t => (t.e.state, t.e.index, t.e.checksum, t.out.cmds))
      = some (.ackSent, 4, 0x99#8, [0x433#12]) := by decide
/-- E24 and E25. -/
theorem test_E24_E25 :
    got (exec (.evDoneOut1 true) { at_ .nackDone 0 true with e := { (at_ .nackDone 0 true).e with haveIndex := true } })
      (fun t => (t.e.state, t.e.busy, t.e.checksum, t.e.haveIndex)) = some (.idle, false, 0xAA#8, true) ∧
    got (exec (.evDoneOut1 true) { at_ .nackDone 0 true with
        e := { (at_ .nackDone 0 true).e with haveIndex := true }, p := { params with resetClearsHaveIndex := true } })
      (fun t => t.e.haveIndex) = some false := by decide
/-- E20; and an event its state does not expect. -/
theorem test_E20 :
    got (exec (.evDoneOut8 0x33#8) (at_ .ackSent)) (fun t => (t.e.state, t.out.cmds)) = some (.ackSent, [0x100#12]) ∧
    got (exec (.evDoneOut8 0x33#8) (at_ .idle)) (fun t => t.fault)
      = some (some { reason := .unexpectedEvent, state := 0#4, ev := 0x533#12 }) := by decide
/-- E22 and E23. -/
theorem test_E22_E23 :
    got (exec (.evDoneIn1 false) (at_ .ackSent 5)) (fun t => (t.e.index, t.e.checksum, t.out.cmds))
      = some (5, 0xAA#8, [0x4AA#12]) ∧
    got (exec (.evDoneIn1 true) (at_ .ackSent 5 true)) (fun t => (t.e.state, t.e.busy, t.out.cmds))
      = some (.idle, false, [0x000#12]) := by decide
/-- E29 and E30: the state is decoded before the event. -/
theorem test_E29_E30 :
    got (step (withScript (at_ .reserved12) [.word .evWord 0x000#32])) (fun t => t.fault.map (·.reason)) = some (some .badState) ∧
    got (step (withScript (at_ .receiveByte) [.word .evWord 0x700#32])) (fun t => t.fault.map (·.reason))
      = some (some .badEvent) := by decide

/-- R99, R71: the engine goes by the kind of a word, and ignores the data of the OUT kinds. -/
theorem test_out_data_ignored :
    got (step (withScript (at_ .receiveByte) [.word .evWord 0x4F2#32])) (fun t => (t.e.state, t.out.cmds))
      = some (.receiveByte, [0x200#12]) := by decide

/-! ### Transport commands (section 4 of spec/40) -/

theorem test_tDisarm :
    got (exec .tDisarm (withT common (armOut8 0))) (fun t => (t.t.kind, t.t.cnt, t.t.drive)) = some (none, 0#4, true) := by
  decide
theorem test_tIn1 :
    got (exec .tIn1 common) (fun t => (t.t.kind, t.t.n, t.t.cnt, t.t.drive)) = some (some .inp, .one, 1#4, true) := by decide
theorem test_tIn8 :
    got (exec .tIn8 common) (fun t => (t.t.kind, t.t.n, t.t.cnt, t.t.drive)) = some (some .inp, .eight, 8#4, true) := by
  decide
theorem test_tOut1 :
    got (exec (.tOut1 false) common) (fun t => (t.t.kind, t.t.cnt, t.t.out, t.t.drive))
      = some (some .out, 1#4, 0x00#8, false) := by decide
theorem test_tOut8 :
    got (exec (.tOut8 0x9A#8) common) (fun t => (t.t.kind, t.t.cnt, t.t.out, t.t.drive))
      = some (some .out, 8#4, 0x9A#8, true) := by decide

/-! ### Host commands (sections 2.6 to 2.8) -/

/-- H1. -/
theorem test_nop : got (exec .nop common) (fun t => t == common) = some true := by decide
/-- H5, H7, H8. -/
theorem test_regw :
    got (exec (.regw true 0xFF#8 0x1234#16) (at_ .idle)) (fun t => (t.h.wbase, t.h.wlen)) = some (0, 0) ∧
    got (exec (.regw false 0xFF#8 0xFF01#16) (at_ .idle)) (fun t => (t.h.wbase, t.h.wlen)) = some (0xFF01#16, 0xFF#8) ∧
    got (exec (.regw false 0xFF#8 0xFF02#16) (at_ .idle)) (fun t => (t.h.wlen, t.out.refusal, t.refusalMark))
      = some (4, some .regionRange, true) := by decide
/-- H10, H11, H12. -/
theorem test_regr :
    got (exec (.regr false 5 0x0200#16) (at_ .receiveByte)) (fun t => t.out.refusal) = some (some .inFlight) ∧
    got (exec (.regr false 5 0x0200#16) (withT common (fun t => { t with startF := true }))) (fun t => t.out.refusal)
      = some (some .inFlight) ∧
    got (exec (.regr false 5 0x0200#16) (withT common (fun t => { t with stopF := true }))) (fun t => (t.h.rbase, t.h.rlen))
      = some (0x0200#16, 5) := by decide
/-- H14. -/
theorem test_arm : got (exec .arm State.reset) (fun t => t.h.armed) = some true := by decide
/-- Q2, Q4 and Q5. -/
theorem test_qbusy :
    got (exec .qbusy (at_ .receiveByte 0 true)) (fun t => (t.out.resp, t.e.busy)) = some (some 1#32, true) ∧
    got (exec .qbusy (withT (at_ .ackSent 0 true) (fun t => { t with stopF := true })))
      (fun t => (t.out.resp, t.e.busy, t.t.stopF)) = some (some 0#32, false, true) ∧
    got (exec .qbusy { withT (at_ .ackSent 0 true) (fun t => { t with stopF := true }) with
        p := { params with healScope := .narrow } }) (fun t => (t.out.resp, t.e.busy)) = some (some 1#32, true) := by decide
/-- H15, H16, H17. -/
theorem test_status :
    got (exec .status (State.powerOn params 0 [] [] [])) (fun t => t.out.resp) = some (some 0x00AA0000#32) ∧
    got (exec .status common) (fun t => t.out.resp) = some (some 0x01AA0000#32) ∧
    got (exec .status (withT (at_ .receiveByte 4 true) (fun t => { t with stopF := true }))) (fun t => t.out.resp)
      = some (some 0x01AA04C6#32) := by decide
/-- K2: the padding bit is kept. -/
theorem test_commit :
    got (step (withScript { common with mem := [(0x100, 0x0D#8), (0x101, 0xAA#8), (0x102, 0xBB#8), (0x103, 0xCC#8)] } [.tick]))
      (fun t => (t.shadow, t.mem.read 0x100)) = some ([0xAA#8, 0xBB#8, 0xCC#8], 0x08#8) := by decide
/-- K5 and K6. -/
theorem test_commit_edges :
    got (step (withScript { common with mem := [(0x100, 0x05#8)], shadow := [1#8], h := { common.h with wlen := 0 } } [.tick]))
      (fun t => (t.shadow, t.mem.read 0x100)) = some ([1#8], 0x05#8) ∧
    got (step (withScript { common with mem := [(0x100, 0x05#8)], shadow := [1#8], h := { common.h with wlen := 1 } } [.tick]))
      (fun t => (t.shadow, t.mem.read 0x100)) = some ([], 0x00#8) := by decide

/-! ### Witnesses: each statement's hypotheses met together, its clauses at their boundaries -/

theorem common_live : Live common := ⟨rfl, rfl⟩
theorem common_quiet : Quiet common.t := ⟨rfl, rfl⟩

theorem witness_EncodeOfDecodeIsTheWord :
    decode .evWord 0x5FF#32 = .ok (.evDoneOut8 0xFF#8) ∧ decode .wireAck 1#32 = .ok .nack := by decide

theorem witness_ReservedWordsAreRejectedByName :
    (0#4).toNat = 0 ∧ 6 ≤ (6#4).toNat ∧ 6 ≤ (15#4).toNat ∧ 5 ≤ (5#4).toNat ∧ (1#28 : BitVec 28) ≠ 0 ∧
    (4#3 : BitVec 3) ≠ 0 := by decide

theorem witness_StepRunsTheDecodedInstruction :
    ((withScript (withT common (fun t => { t with startF := true })) [.word .hcmdWord 0#32]).script = [.word .hcmdWord 0#32] ∧
      decode .hcmdWord 0#32 = .ok .nop ∧ Format.hcmdWord.isBus = false) ∧
    ((withScript common [.word .busSym 1#32]).script = [.word .busSym 1#32] ∧ decode .busSym 1#32 = .ok .clk1 ∧
      engineEnabled (withScript common [.word .busSym 1#32]) = false) := by decide

/-- A transfer complete and not serviced. -/
def done (dir : Dir) (n : XferLen) (d : Byte) : State :=
  withT common (fun t => { t with doneF := true, doneKind := dir, doneN := n, doneData := d })

/-- A start condition not serviced. -/
def started : State := withT common (fun t => { t with startF := true })

theorem witness_PendingEventRunsBeforeTheNextSymbol :
    Format.busSym.isBus = true ∧ (withScript started [.word .busSym 3#32]).script = [.word .busSym 3#32] ∧
    started.script = [] ∧ Live started ∧
    Live (withScript started [.word .busSym 3#32]) ∧ started.t.startF = true ∧
    (∀ dir n d, Live (withScript (done dir n d) [.word .busSym 3#32]) ∧ (done dir n d).t.startF = false ∧
      (done dir n d).t.doneF = true ∧ (done dir n d).t.doneKind = dir ∧ (done dir n d).t.doneN = n) ∧
    (done .inp .one 1).t.doneData = (if true then 1 else 0) ∧
    (done .out .one 0).t.doneData = (if false then 1 else 0) :=
  ⟨rfl, rfl, rfl, ⟨rfl, rfl⟩, ⟨rfl, rfl⟩, rfl, fun _ _ _ => ⟨⟨rfl, rfl⟩, rfl, rfl, rfl, rfl⟩, rfl, rfl⟩

theorem witness_ServeTakesThePendingEvent :
    (withScript started [.serve]).script = [.serve] ∧ Live (withScript started [.serve]) ∧ started.t.startF = true ∧
    (∀ dir n d, Live (withScript (done dir n d) [.serve]) ∧ (done dir n d).t.startF = false ∧
      (done dir n d).t.doneF = true ∧ (done dir n d).t.doneKind = dir ∧ (done dir n d).t.doneN = n) ∧
    (done .inp .one 1).t.doneData = (if true then 1 else 0) ∧ (done .out .one 0).t.doneData = (if false then 1 else 0) ∧
    Quiet (withScript common [.serve]).t ∧ ¬ Live (withScript State.reset [.serve]) :=
  ⟨rfl, ⟨rfl, rfl⟩, rfl, fun _ _ _ => ⟨⟨rfl, rfl⟩, rfl, rfl, rfl, rfl⟩, rfl, rfl, ⟨rfl, rfl⟩, fun h => by cases h.1⟩

theorem witness_NothingHappensWithoutInput :
    (common.script = [] ∧ Quiet common.t) ∧
    (withT State.reset startCondition).script = [] ∧ ¬ Live (withT State.reset startCondition) :=
  ⟨⟨rfl, rfl, rfl⟩, rfl, fun h => by cases h.1⟩

theorem witness_PowerOnInputResetsTheBlock :
    (withScript common [.powerOn [(0xFFFF#16, 1)] [2]]).script = .powerOn [(0xFFFF#16, 1)] [2] :: [] ∧
    ∀ c ∈ [((0xFFFF#16, 1) : Addr × Byte)], c.1.toNat < 2 ^ (withScript common []).p.addrWidth :=
  ⟨rfl, by simp [withScript, common, State.powerOn, params]⟩

theorem witness_UnarmedBlockIsInvisibleOnTheBus :
    State.reset.h.armed = false ∧ (Instr.start).format.isBus = true ∧ (Instr.addr 0x40#7 true).format.isBus = true ∧
    (Instr.nack).format.isBus = true := by decide

theorem witness_StartConditionRaisesStartFlag :
    common.h.armed = true ∧ Quiet common.t ∧ common.t.drive = true ∧ common.fault = none ∧
    (Instr.clk0).format = .busSym ∧ (Instr.stop).format = .busSym := ⟨rfl, ⟨rfl, rfl⟩, rfl, rfl, rfl, rfl⟩

theorem witness_StopConditionLatchesAndParks :
    common.h.armed = true ∧ Quiet common.t ∧ common.t.drive = true := ⟨rfl, ⟨rfl, rfl⟩, rfl⟩

theorem witness_ClocksWithNothingArmedAreIgnored :
    common.h.armed = true ∧ Quiet common.t ∧ common.t.kind = none ∧ (Instr.clk0).format.isBus = true ∧
    Instr.clk0 ≠ .start ∧ Instr.clk0 ≠ .stop ∧ (Instr.dataW 0).format.isBus = true :=
  ⟨rfl, ⟨rfl, rfl⟩, rfl, rfl, by decide, by decide, rfl⟩

theorem witness_ClockCarriesOutShift :
    common.h.armed = true ∧ Quiet common.t ∧ common.t.kind = none ∧
    (Quiet (withT common (armOut8 0)).t ∧ (withT common (armOut8 0)).t.kind = some .out ∧ (withT common (armOut8 0)).t.cnt ≠ 1) ∧
    (Quiet (withT common armIn1).t ∧ (withT common armIn1).t.kind = some .inp ∧ (withT common armIn1).t.cnt = 1 ∧
      (withT common armIn1).fault = none) :=
  ⟨rfl, ⟨rfl, rfl⟩, rfl, ⟨⟨rfl, rfl⟩, rfl, by decide⟩, ⟨⟨rfl, rfl⟩, rfl, rfl, rfl⟩⟩

theorem witness_SamplesGiveTheSymbols :
    (∀ i ∈ [Instr.start, .clk1, .clk0, .stop], i.format = .busSym) ∧
    (withScript common [.samples (true, true) ([Instr.start, .clk1, .clk0, .stop].flatMap waveOf)]).script
      = .samples (true, true) ([Instr.start, .clk1, .clk0, .stop].flatMap waveOf) :: [] := ⟨by decide, rfl⟩

theorem witness_MasterHasNoMoveAgainstItsDuties :
    (started.h.armed = true ∧ flagged started.t = true ∧ (Instr.clk1).format = .busSym) ∧
    ((withT common (armOut1 false)).h.armed = true ∧ Quiet (withT common (armOut1 false)).t ∧
      (withT common (armOut1 false)).t.drive = false) := ⟨⟨rfl, rfl, rfl⟩, rfl, ⟨rfl, rfl⟩, rfl⟩

theorem witness_DisarmCancelsTheTransfer : common.h.armed = true ∧ Quiet common.t := ⟨rfl, rfl, rfl⟩
theorem witness_BitInSamplesTheMaster : common.h.armed = true ∧ Quiet common.t := ⟨rfl, rfl, rfl⟩
theorem witness_EightClocksDeliverTheByte : common.h.armed = true ∧ Quiet common.t := ⟨rfl, rfl, rfl⟩
theorem witness_BitOutDrivesTheLine : common.h.armed = true ∧ Quiet common.t := ⟨rfl, rfl, rfl⟩
theorem witness_EightReleasedClocksReadTheByte : common.h.armed = true ∧ Quiet common.t := ⟨rfl, rfl, rfl⟩

theorem witness_StartEventOpensTheAddressPhase :
    Live (at_ .nackDone) ∧ (at_ .nackDone).e.state.isResting = true ∧ Live (at_ .idle) ∧ (at_ .idle).e.state.isResting = true :=
  ⟨⟨rfl, rfl⟩, rfl, ⟨rfl, rfl⟩, rfl⟩

theorem witness_AddressByteIsMatchedAndAnswered :
    Live (at_ .addressReceived) ∧ (at_ .addressReceived).e.state = .addressReceived := ⟨⟨rfl, rfl⟩, rfl⟩

theorem witness_IndexByteIsLoadedAndAcknowledged :
    Live (at_ .receiveIndexByte) ∧ (at_ .receiveIndexByte).e.state = .receiveIndexByte := ⟨⟨rfl, rfl⟩, rfl⟩

theorem witness_DataByteIsStoredOrRefused :
    (Live (at_ .receiveByte 3) ∧ (at_ .receiveByte 3).e.state = .receiveByte ∧
      (at_ .receiveByte 3).e.index.toNat < (at_ .receiveByte 3).h.wlen.toNat) ∧
    (Live (at_ .receiveByte 4) ∧ (at_ .receiveByte 4).e.state = .receiveByte ∧
      (at_ .receiveByte 4).h.wlen.toNat ≤ (at_ .receiveByte 4).e.index.toNat) :=
  ⟨⟨⟨rfl, rfl⟩, rfl, by decide⟩, ⟨rfl, rfl⟩, rfl, by decide⟩

theorem witness_EventWordsStoreOnlyTheDataByte :
    isEvent (.evDoneIn8 0xFF#8) ∧ isEvent .evStart ∧ (at_ .receiveByte 3).mem.wf := ⟨rfl, rfl, by decide⟩

theorem witness_HalfStepsArmTheNextTransfer :
    Live (at_ .receiveIndexByte) ∧ (at_ .receiveIndexByte).e.state = .receiveIndexByte ∧ Live (at_ .receiveByte) ∧
    (at_ .receiveByte).e.state = .receiveByte ∧ Live (at_ .ackSent) ∧ (at_ .ackSent).e.state = .ackSent :=
  ⟨⟨rfl, rfl⟩, rfl, ⟨rfl, rfl⟩, rfl, ⟨rfl, rfl⟩, rfl⟩

theorem witness_ReadBytesAreDrawnOrTheChecksumRepeats :
    (∀ x k, Live (at_ x k)) ∧ (at_ .transmitByte).e.state = .transmitByte ∧ (at_ .ackSent).e.state = .ackSent ∧
    (at_ .ackSent 4).e.index.toNat < common.h.rlen.toNat ∧ common.h.rlen.toNat ≤ (at_ .ackSent 5).e.index.toNat :=
  ⟨fun _ _ => ⟨rfl, rfl⟩, rfl, rfl, by decide, by decide⟩

theorem witness_NackDoneResetsTheEndpoint : Live (at_ .nackDone) ∧ (at_ .nackDone).e.state = .nackDone := ⟨⟨rfl, rfl⟩, rfl⟩

theorem witness_UnexpectedEventsAndBadStatesFault :
    (Live (at_ .idle) ∧ isEvent (.evDoneIn8 0x80#8) ∧ (at_ .idle).e.state.isResting = true ∧
      expects (at_ .idle).e.state (.evDoneIn8 0x80#8) = false) ∧
    (Live (at_ .reserved15) ∧ isEvent .evStart ∧ (at_ .reserved15).e.state.isResting = false) :=
  ⟨⟨⟨rfl, rfl⟩, rfl, rfl, rfl⟩, ⟨rfl, rfl⟩, rfl, rfl⟩

theorem witness_ReservedInterfaceWordsFault :
    ((0#4).toNat = 0 ∧ 6 ≤ (6#4).toNat ∧ Live (withScript common [.word .evWord (wordOf12 6#4 0)]) ∧
      (withScript common [.word .evWord (wordOf12 6#4 0)]).script = .word .evWord (wordOf12 6#4 0) :: []) ∧
    (5 ≤ (5#4).toNat ∧
      (withScript common [.word .tcmdWord (wordOf12 5#4 0)]).script = .word .tcmdWord (wordOf12 5#4 0) :: []) :=
  ⟨⟨rfl, by decide, ⟨rfl, rfl⟩, rfl⟩, by decide, rfl⟩

/-- The loose words 0x101, 0x2F3, 0x4F2 and 0x302, and a word wider than its format. -/
theorem witness_UnlistedDataBitsAreIgnored :
    (∀ w, (withScript common [.word .evWord w]).script = .word .evWord w :: []) ∧
    (∀ w, (withScript common [.word .tcmdWord w]).script = .word .tcmdWord w :: []) ∧
    wordOf12 1 0x01#8 = 0x101#32 ∧ wordOf12 2 0xF3#8 = 0x2F3#32 ∧ wordOf12 4 0xF2#8 = 0x4F2#32 ∧
    wordOf12 3 0x02#8 = 0x302#32 ∧ ¬ Live State.reset ∧
    (∀ x, Live (at_ x)) ∧ (expects .idle .evStart = true ∧ expects .ackSent (.evDoneIn1 true) = true ∧
      expects .receiveByte (.evDoneOut1 false) = true ∧ expects .idle (.evDoneIn1 true) = false) ∧
    EState.ackOrNack.isResting = false ∧ Format.evWord.fits 0x1000#32 = false ∧ Format.evWord.isBus = false ∧
    Format.busSym.fits 4#32 = false ∧ engineEnabled common = false :=
  ⟨fun _ => rfl, fun _ => rfl, by decide, by decide, by decide, by decide, (fun h => by cases h.1), (fun _ => ⟨rfl, rfl⟩), by decide,
    rfl, by decide, rfl, by decide, rfl⟩

theorem witness_StoppedEngineTakesNoStep :
    isEvent .evStart ∧ State.reset.h.armed = false ∧
    ({ common with fault := some { reason := .badEvent, state := 0, ev := 0 } } : State).fault ≠ none :=
  ⟨rfl, rfl, by decide⟩

theorem witness_AddressFrameIsAnswered :
    Live (withT (at_ .addressReceived) armIn8) ∧ (withT (at_ .addressReceived) armIn8).e.state = .addressReceived ∧
    ByteIn (withT (at_ .addressReceived) armIn8).t := ⟨⟨rfl, rfl⟩, rfl, ⟨rfl, rfl⟩, rfl, rfl, rfl, rfl⟩

theorem witness_IndexFrameIsLoaded :
    Live (withT (at_ .receiveIndexByte) armIn8) ∧ (withT (at_ .receiveIndexByte) armIn8).e.state = .receiveIndexByte ∧
    ByteIn (withT (at_ .receiveIndexByte) armIn8).t := ⟨⟨rfl, rfl⟩, rfl, ⟨rfl, rfl⟩, rfl, rfl, rfl, rfl⟩

theorem witness_DataFrameIsStoredOrRefused :
    (∀ k, Live (withT (at_ .receiveByte k) armIn8) ∧ (withT (at_ .receiveByte k) armIn8).e.state = .receiveByte ∧
      ByteIn (withT (at_ .receiveByte k) armIn8).t) ∧
    (at_ .receiveByte 3).e.index.toNat < common.h.wlen.toNat ∧ common.h.wlen.toNat ≤ (at_ .receiveByte 4).e.index.toNat :=
  ⟨fun _ => ⟨⟨rfl, rfl⟩, rfl, ⟨rfl, rfl⟩, rfl, rfl, rfl, rfl⟩, by decide, by decide⟩

theorem witness_ReadFrameCarriesTheArmedByte :
    Live (withT (at_ .ackSent) (armOut8 0x33#8)) ∧ (withT (at_ .ackSent) (armOut8 0x33#8)).e.state = .ackSent ∧
    ByteOut 0x33#8 (withT (at_ .ackSent) (armOut8 0x33#8)).t := ⟨⟨rfl, rfl⟩, rfl, ⟨rfl, rfl⟩, rfl, rfl, rfl, rfl, rfl⟩

theorem witness_MasterAcknowledgeFrames :
    (∀ k, Live (withT (at_ .ackSent k) armIn1) ∧ (withT (at_ .ackSent k) armIn1).e.state = .ackSent ∧
      BitIn (withT (at_ .ackSent k) armIn1).t) ∧
    (at_ .ackSent 4).e.index.toNat < common.h.rlen.toNat ∧ common.h.rlen.toNat ≤ (at_ .ackSent 5).e.index.toNat :=
  ⟨fun _ => ⟨⟨rfl, rfl⟩, rfl, ⟨rfl, rfl⟩, rfl, rfl, rfl, rfl⟩, by decide, by decide⟩

theorem witness_SlaveAcknowledgeFrames :
    (∀ x b, Live (withT (at_ x) (armOut1 b)) ∧ BitOut b (withT (at_ x) (armOut1 b)).t) ∧
    (withT (at_ .receiveIndexByte) (armOut1 false)).e.state = .receiveIndexByte ∧
    (withT (at_ .receiveByte) (armOut1 false)).e.state = .receiveByte ∧
    (withT (at_ .nackDone) (armOut1 true)).e.state = .nackDone ∧
    (∀ k, Live (withT (at_ .transmitByte k) (armOut1 false)) ∧ BitOut false (withT (at_ .transmitByte k) (armOut1 false)).t ∧
      (withT (at_ .transmitByte k) (armOut1 false)).e.state = .transmitByte) ∧
    (at_ .transmitByte 4).e.index.toNat < common.h.rlen.toNat ∧ common.h.rlen.toNat ≤ (at_ .transmitByte 5).e.index.toNat :=
  ⟨fun _ _ => ⟨⟨rfl, rfl⟩, ⟨rfl, rfl⟩, rfl, rfl, rfl, rfl⟩, rfl, rfl, rfl,
    fun _ => ⟨⟨rfl, rfl⟩, ⟨⟨rfl, rfl⟩, rfl, rfl, rfl, rfl⟩, rfl⟩, by decide, by decide⟩

theorem witness_RegistrationFollowsItsRule :
    (2 ^ 12 ≤ (0x1000#16).toNat ∧ ¬ 2 ^ 16 ≤ (0xFFFF#16).toNat) ∧
    (2 ^ 16 < (0xFF02#16).toNat + (0xFF#8).toNat ∧ ¬ 2 ^ 16 < (0xFF01#16).toNat + (0xFF#8).toNat) ∧
    (¬ Free (at_ .receiveByte) ∧ ¬ Free started ∧ Free (at_ .idle) ∧ Free State.reset) ∧
    ((1#3 : BitVec 3) ≠ 0 ∧ (withScript common [.word .hcmdWord (1#4 ++ BitVec.ofBool true ++ 1#3 ++ 0#8 ++ 0#16)]).script
      = .word .hcmdWord (1#4 ++ BitVec.ofBool true ++ 1#3 ++ 0#8 ++ 0#16) :: []) ∧
    (255 < 256 ∧ (withScript common [.register true (some 0xFF00#16) 256]).script = .register true (some 0xFF00#16) 256 :: [] ∧
      (0xFF00#16).toNat < 2 ^ 16 ∧ (0xFF00#16).toNat + 256 ≤ 2 ^ 16) := by
  refine ⟨by decide, by decide, ⟨?_, ?_, .inr ⟨rfl, rfl, rfl⟩, .inl rfl⟩, ⟨by decide, rfl⟩, by decide, rfl, by decide, by decide⟩ <;>
    (unfold Free; decide)

theorem witness_RegistrationCallsRunTheCommands :
    (withScript common [.register true none 7]).script = .register true none 7 :: [] ∧ 255 ≤ 255 ∧
    (withScript common [.register false (some 0x100#16) 255]).script = .register false (some 0x100#16) 255 :: [] ∧
    255 < 256 ∧ (withScript started [.register true (some 0xFF01#16) 256]).script = .register true (some 0xFF01#16) 256 :: [] := by
  decide

theorem witness_ReservedOpsAreRefused :
    6 ≤ (6#4).toNat ∧ (withScript common [.word .hcmdWord (6#4 ++ 0#28)]).script = .word .hcmdWord (6#4 ++ 0#28) :: [] := by
  decide

/-- What `RefusesField` supposes, for NOP, ARM, QBUSY and STATUS. -/
theorem witness_RefusesField :
    (1#28 : BitVec 28) ≠ 0 ∧ ∀ op : BitVec 4,
      (withScript common [.word .hcmdWord (op ++ 1#28)]).script = .word .hcmdWord (op ++ 1#28) :: [] :=
  ⟨by decide, fun _ => rfl⟩

theorem witness_NopChangesNothingAndArmOnlyArms : common.h.armed = true := rfl

theorem witness_BusyQueryAnswersAndHeals :
    ((withT (at_ .ackSent 0 true) stopCondition).e.busy = true ∧ (withT (at_ .ackSent 0 true) stopCondition).t.stopF = true ∧
      (withT (at_ .ackSent 0 true) stopCondition).p.healScope = .wide) ∧
    (({ withT (at_ .ackSent 0 true) stopCondition with p := { params with healScope := .narrow } } : State).e.busy = true ∧
      ¬ (({ params with healScope := .narrow } : Params).healScope = .wide ∨ (at_ .ackSent 0 true).e.state = .receiveByte)) ∧
    ((at_ .receiveByte 0 true).e.busy = true ∧ (at_ .receiveByte 0 true).t.stopF = false) ∧ common.e.busy = false := by
  decide

theorem witness_CommitTickAdoptsTheWholePayload :
    (withScript { common with mem := [(0x100, 0x05#8)] } [.tick]).script = .tick :: [] ∧
    (common.e.busy = false ∧ 1 ≤ common.h.wlen.toNat ∧
      Memory.read [(0x100, 0x05#8)] (regionAddr params 0x0100#16 0) &&& params.commitMask = params.commitMagic) ∧
    Memory.read [(0x100, 0x04#8)] (regionAddr params 0x0100#16 0) &&& params.commitMask ≠ params.commitMagic := by decide

theorem witness_HostMemoryAccesses :
    common.mem.wf ∧ (withScript common [.load 0xFFFF#16]).script = .load 0xFFFF#16 :: [] ∧
    (withScript common [.store 0x104#16 1]).script = .store 0x104#16 1 :: [] ∧
    ((0xFFFF#16).toNat < 2 ^ 16 ∧ 2 ^ 12 ≤ (0x1000#16).toNat) ∧
    inWb common 0x103 = true ∧ inWb common 0x104 = false := by decide

/-- The common setup has the invariant, in every resting state with the transfer that state waits for. -/
theorem waiting_inv (x : EState) (dir : Dir) (n : XferLen) (t : Transport) (ht : TransportOk t)
    (hp : pendingXfer t = some (dir, n)) (hx : waitsFor x (dir, n) = true) (hi : x ≠ .idle)
    (hr : x.isResting = true) (k : Byte) (b : Bool) : Inv { at_ x k b with t := t } where
  params := rfl
  wRegion := by change params.regionFits 0x0100#16 4 = true; decide
  rRegion := by change params.regionFits 0x0100#16 5 = true; decide
  resting := hr
  transport := ht
  waits := by simp only [EngineWaits, hp]; exact hx
  idleClean := fun h => absurd h hi
  unarmedQuiet := fun h => by cases h
  memCanonical := by change Memory.wf [(0x101, 0x11#8), (0x102, 0x22#8), (0x103, 0x33#8), (0x104, 0x5A#8)]; decide
  memInRange := by change ∀ c ∈ [(0x101, 0x11#8), (0x102, 0x22#8), (0x103, 0x33#8), (0x104, 0x5A#8)], c.1 < 2 ^ 16; decide
  noFault := rfl
  dutiful := fun _ h => by cases h

/-- A busy write that holds the line low for its ACK. -/
def acking : State := withT (at_ .receiveByte 1 true) (armOut1 false)

theorem acking_inv : Inv acking :=
  waiting_inv .receiveByte .out .one _ (by constructor <;> decide) rfl rfl (by decide) rfl 1 true

/-- The same write when the ACK clock is done and not serviced. -/
def acked : State :=
  withT (at_ .receiveByte 1 true) (fun t => { t with doneF := true, doneKind := .out, doneN := .one })

theorem acked_inv : Inv acked :=
  waiting_inv .receiveByte .out .one _ (by constructor <;> decide) rfl rfl (by decide) rfl 1 true

/-- The armed block in Idle. -/
theorem common_inv : Inv common where
  params := rfl
  wRegion := by change params.regionFits 0x0100#16 4 = true; decide
  rRegion := by change params.regionFits 0x0100#16 5 = true; decide
  resting := rfl
  transport := by constructor <;> decide
  waits := .inl rfl
  idleClean := fun _ => ⟨rfl, rfl, rfl, rfl⟩
  unarmedQuiet := fun h => by cases h
  memCanonical := by decide
  memInRange := by decide
  noFault := rfl
  dutiful := fun _ h => by cases h

theorem witness_EveryStepKeepsTheInvariant : Inv common ∧ ∃ t, step common = .next t := ⟨common_inv, _, rfl⟩

theorem witness_NoFaultIsReachableUnderTheDuties :
    params.wf = true ∧ (∀ it ∈ [Item.word .hcmdWord 0x30000000#32], itemDutiful it = true) ∧
    ∃ t, Host.Core.run Sys2Proof.core 1
      (State.powerOn params 0x40#7 (Memory.ofCells params.addrWidth []) [] [.word .hcmdWord 0x30000000#32]) = .next t :=
  ⟨rfl, by decide, _, rfl⟩

theorem witness_InvariantGivesTheSpecsInvariants :
    (Inv common ∧ common.e.state = .idle) ∧
    (Inv acking ∧ acking.e.busy = true ∧ acking.t.drive = false) ∧ (Inv acked ∧ acked.t.doneF = true) :=
  ⟨⟨common_inv, rfl⟩, ⟨acking_inv, rfl, rfl⟩, acked_inv, rfl⟩

theorem witness_EveryStepKeepsMemoryCanonical : common.mem.wf ∧ ∃ t, step common = .next t := ⟨by decide, _, rfl⟩

theorem witness_NoStepChangesAParameter : ∃ t, step (withScript common [.powerOn [] []]) = .next t := ⟨_, rfl⟩

theorem witness_NoStepStoresOutsideTheWritableWindow :
    (∃ t, step (withScript common [.word .evWord 0x3CC#32]) = .next t) ∧
    hostWrites (withScript common [.word .evWord 0x3CC#32]).script = false ∧ inWb common 0x0FF = false ∧
    inWb common 0x104 = false := ⟨⟨_, rfl⟩, by decide, by decide, by decide⟩

theorem witness_OnlyTheConsumerWritesTheShadow :
    (∃ t, step (withScript common [.tick]) = .next t) ∧ powersOn (withScript common [.tick]).script = false :=
  ⟨⟨_, rfl⟩, rfl⟩

theorem witness_ArmingFaultAndRefusalMarkAreSticky :
    (∃ t, step { common with fault := some { reason := .badEvent, state := 0, ev := 0 }, refusalMark := true } = .next t) ∧
    powersOn common.script = false ∧ common.h.armed = true := ⟨⟨_, rfl⟩, rfl, rfl⟩

theorem witness_BusyIsRaisedOnlyByAStoredByte :
    (at_ .receiveByte).e.busy = false ∧
    (at_ .receiveByte).mem.wf ∧
    got (step (withScript (at_ .receiveByte) [.word .evWord 0x3CC#32])) (fun t => t.e.busy) = some true ∧
    got (step { withScript (done .inp .eight 0xCC#8) [.serve] with e := (at_ .receiveByte).e }) (fun t => t.e.busy)
      = some true ∧
    got (step (withScript (withT (at_ .receiveByte) armIn8) [.word .wireData 0xCC#32])) (fun t => t.e.busy)
      = some true := by decide

theorem witness_WritePhaseLandsInOrder :
    Live (at_ .receiveByte 2) ∧ (at_ .receiveByte 2).e.state = .receiveByte ∧ (at_ .receiveByte 2).mem.wf ∧
    (at_ .receiveByte 2).p.regionFits (at_ .receiveByte 2).h.wbase (at_ .receiveByte 2).h.wlen = true ∧
    (at_ .receiveByte 2).e.index.toNat + [0xD1#8, 0xD2#8].length ≤ (at_ .receiveByte 2).h.wlen.toNat :=
  ⟨⟨rfl, rfl⟩, rfl, by decide, by decide, by decide⟩

theorem witness_ReadPhaseSendsTheRegionThenTheChecksum :
    Live (at_ .transmitByte 3) ∧ (at_ .transmitByte 3).e.state = .transmitByte := ⟨⟨rfl, rfl⟩, rfl⟩

/-- C6 and P2: from index 3 the bytes sent are 33, 5A and then C3. -/
theorem test_sent_bytes :
    (List.range 4).map (sentByte (at_ .transmitByte 3)) = [0x33#8, 0x5A#8, 0xC3#8, 0xC3#8] := by decide

end Sys2Proof.Tests
end

section
/-! What an instruction and a rejected word can do, each said once, and R9: no step changes a build-time parameter or
the slave address. -/

namespace Sys2Proof.Machine

/-- What an instruction answered with a state has done, by the operation it runs. -/
inductive ExecMove (s t : State) : Prop where
  | clock (m : Bool) (h : busClock m s = .next t)
  | start (h : busEdge startCondition s = .next t)
  | stop (h : busEdge stopCondition s = .next t)
  | wire (ms : List Bool) (h : frame ms s = .next t)
  | event (k : EvKind) (d : Byte) (h : engineStep k d s = t)
  | command (c : TCmd) (h : { s with t := carryOut c s.t } = t)
  | nop (h : s = t)
  | register (writable null : Bool) (len : Byte) (base : Addr)
      (h : registration (if writable then setW else setR) null len base s = t)
  | arm (h : { s with h := { s.h with armed := true } } = t)
  | query (h : respond (0#31 ++ BitVec.ofBool (busyAnswer s)) (queryBusy s) = t)
  | status (h : respond (statusWord s) s = t)

/-- Every instruction runs one of the operations of `ExecMove`. -/
theorem exec_move {s t : State} : ∀ i : Instr, exec i s = .next t → ExecMove s t
  | .clk0, h => .clock false h
  | .clk1, h => .clock true h
  | .start, h => .start h
  | .stop, h => .stop h
  | .addr a d, h => .wire (byteBits (addrByte a d)) h
  | .index x, h => .wire (byteBits x) h
  | .dataW v, h => .wire (byteBits v) h
  | .dataR v, h => .wire (byteBits v) h
  | .ack, h => .wire [ACK] h
  | .nack, h => .wire [NACK] h
  | .evStart, h => .event .start 0 (Host.Outcome.next.inj h)
  | .evDoneIn1 b, h => .event .in1 (bitByte b) (Host.Outcome.next.inj h)
  | .evDoneIn8 d, h => .event .in8 d (Host.Outcome.next.inj h)
  | .evDoneOut1 b, h => .event .out1 (bitByte b) (Host.Outcome.next.inj h)
  | .evDoneOut8 d, h => .event .out8 d (Host.Outcome.next.inj h)
  | .tDisarm, h => .command .disarm (Host.Outcome.next.inj h)
  | .tIn1, h => .command .in1 (Host.Outcome.next.inj h)
  | .tIn8, h => .command .in8 (Host.Outcome.next.inj h)
  | .tOut1 b, h => .command (.out1 b) (Host.Outcome.next.inj h)
  | .tOut8 v, h => .command (.out8 v) (Host.Outcome.next.inj h)
  | .nop, h => .nop (Host.Outcome.next.inj h)
  | .regw null len base, h => .register true null len base (Host.Outcome.next.inj h)
  | .regr null len base, h => .register false null len base (Host.Outcome.next.inj h)
  | .arm, h => .arm (Host.Outcome.next.inj h)
  | .qbusy, h => .query (Host.Outcome.next.inj h)
  | .status, h => .status (Host.Outcome.next.inj h)

/-- The engine step on a reserved event word records at most a fault and an activity code (R99, R131). -/
theorem reservedEvent_keeps (w : BitVec 12) (s : State) : EngineKeeps s (reservedEvent w s) := by
  unfold reservedEvent
  split
  · constructor <;> simp
  · exact engineKeeps_refl s

/-- A loose event word goes by its kind, so it keeps what an engine step keeps. -/
theorem looseEvent_keeps (w : BitVec 12) (s : State) : EngineKeeps s (looseEvent w s) := by
  unfold looseEvent
  dsimp only
  split
  · exact engineStep_keeps ..
  · exact engineStep_keeps ..
  · exact engineStep_keeps ..
  · exact reservedEvent_keeps w s

/-- A loose command word is carried out as a command or treated as a reserved one (R72, R131). -/
theorem looseCommand_cases (w : BitVec 12) (s : State) :
    (∃ c, looseCommand w s = { s with t := carryOut c s.t }) ∨ looseCommand w s = reservedCommand w s := by
  unfold looseCommand
  split
  · exact .inl ⟨.disarm, rfl⟩
  · exact .inl ⟨.in1, rfl⟩
  · exact .inl ⟨.in8, rfl⟩
  · exact .inl ⟨.out1 (w.getLsbD 0), rfl⟩
  · exact .inr rfl

/-- The build-time parameters and the slave address are the same in both states (R8, R9, R21). -/
structure SameBuild (s t : State) : Prop where
  p : t.p = s.p
  addr : t.e.addr = s.e.addr

theorem sameBuild_refl (s : State) : SameBuild s s := ⟨rfl, rfl⟩

theorem SameBuild.trans {s t u : State} (h : SameBuild s t) (h' : SameBuild t u) : SameBuild s u :=
  ⟨h'.p.trans h.p, h'.addr.trans h.addr⟩

theorem EngineKeeps.sameBuild {s t : State} (h : EngineKeeps s t) : SameBuild s t := ⟨h.p, h.addr⟩

theorem BusKeeps.sameBuild {s t : State} (h : BusKeeps s t) : SameBuild s t := ⟨h.p, congrArg Endpoint.addr h.e⟩

theorem frame_sameBuild {ms : List Bool} {s t : State} (h : frame ms s = .next t) : SameBuild s t :=
  frame_induction (P := SameBuild s) (fun _ _ _ hp hc => hp.trans (busClock_keeps hc).sameBuild)
    (fun u hp => hp.trans (serveEngine_keeps u).sameBuild) ms s t (sameBuild_refl s) h

theorem registration_sameBuild (f : Addr → Byte → HostPort → HostPort) (null : Bool) (len : Byte) (base : Addr)
    (s : State) : SameBuild s (registration f null len base s) := by
  rcases registration_cases f null len base s with ⟨r, -, h⟩ | ⟨-, -, h⟩ <;> rw [h] <;> exact ⟨rfl, rfl⟩

theorem hostRegister_sameBuild (writable : Bool) (buffer : Option Addr) (length : Nat) (s : State) :
    SameBuild s (hostRegister writable buffer length s) := by
  rcases hostRegister_cases writable buffer length s with ⟨base, -, -, h⟩ | ⟨null, len, base, h⟩ <;> rw [h]
  · exact ⟨rfl, rfl⟩
  · exact registration_sameBuild ..

theorem hostStore_sameBuild {a : Addr} {v : Byte} {s t : State} (h : hostStore a v s = .next t) : SameBuild s t := by
  rcases hostStore_cases a v s with ⟨-, e⟩ | ⟨-, -, e⟩ | ⟨-, -, e⟩ <;> rw [e] at h <;> cases h
  exact ⟨rfl, rfl⟩

theorem hostLoad_sameBuild {a : Addr} {s t : State} (h : hostLoad a s = .next t) : SameBuild s t := by
  rcases hostLoad_cases a s with ⟨-, e⟩ | ⟨-, e⟩ <;> rw [e] at h <;> cases h
  exact ⟨rfl, rfl⟩

theorem commitTick_sameBuild (s : State) : SameBuild s (commitTick s) := by
  rcases commitTick_cases s with ⟨-, h⟩ | ⟨-, h⟩ <;> rw [h] <;> exact ⟨rfl, rfl⟩

theorem looseCommand_sameBuild (w : BitVec 12) (s : State) : SameBuild s (looseCommand w s) := by
  rcases looseCommand_cases w s with ⟨c, h⟩ | h <;> rw [h] <;> exact ⟨rfl, rfl⟩

theorem exec_sameBuild {i : Instr} {s t : State} (h : exec i s = .next t) : SameBuild s t := by
  cases exec_move i h with
  | clock m h => exact (busClock_keeps h).sameBuild
  | start h => exact (busEdge_keeps h).sameBuild
  | stop h => exact (busEdge_keeps h).sameBuild
  | wire ms h => exact frame_sameBuild h
  | event k d h => exact h ▸ (engineStep_keeps k d s).sameBuild
  | register writable null len base h => exact h ▸ registration_sameBuild ..
  | command _ h | nop h | arm h | query h | status h => subst h; exact ⟨rfl, rfl⟩

theorem rejected_sameBuild {err : DecodeError} {s t : State} (h : rejected err s = .next t) : SameBuild s t := by
  cases err with
  | tooWide => cases h
  | reservedEvent w => cases h; exact (reservedEvent_keeps w s).sameBuild
  | looseEvent w => cases h; exact (looseEvent_keeps w s).sameBuild
  | looseCommand w => cases h; exact looseCommand_sameBuild w s
  | reservedCommand | reservedOp | reservedField => cases h; exact ⟨rfl, rfl⟩

theorem runWord_sameBuild {f : Format} {w : Word} {s t : State} (h : runWord f w s = .next t) : SameBuild s t := by
  rcases runWord_cases f w s with ⟨i, -, e⟩ | ⟨err, -, e⟩ <;> rw [e] at h
  · exact exec_sameBuild h
  · exact rejected_sameBuild h

/-- Running an item keeps the build; a power-on builds the reset state of the same build (R147). -/
theorem runItem_sameBuild {it : Item} {s t : State} (h : runItem it s = .next t) : SameBuild s t := by
  cases it with
  | word f w => exact runWord_sameBuild h
  | store a v => exact hostStore_sameBuild h
  | load a => exact hostLoad_sameBuild h
  | tick => cases h; exact commitTick_sameBuild s
  | register writable buffer length => cases h; exact hostRegister_sameBuild ..
  | serve => cases h; exact (serveEngine_keeps s).sameBuild
  | samples before rest => cases h; exact ⟨rfl, rfl⟩
  | powerOn cells shadow => cases h; exact ⟨rfl, rfl⟩

theorem step_sameBuild {s t : State} (h : step s = .next t) : SameBuild s t := by
  have hserve : SameBuild s (serveEngine (beginStep s)) :=
    have hk := (serveEngine_keeps (beginStep s)).sameBuild
    ⟨hk.p, hk.addr⟩
  rcases step_cases s with ⟨-, e⟩ | ⟨_, _, -, -, -, e⟩ | ⟨it, rest, -, -, e⟩ <;> rw [e] at h
  · cases h; exact hserve
  · cases h; exact hserve
  · have hrun := runItem_sameBuild h
    exact ⟨hrun.p, hrun.addr⟩

/-- Settles O53: every operation a step can run keeps the build. -/
theorem noStepChangesAParameter : Obligations.NoStepChangesAParameter := by
  intro s t h
  have hb := step_sameBuild h
  exact ⟨hb.p, hb.addr⟩

end Sys2Proof.Machine
end

section
/-! R74, R75, R124: the fields of the status word, the refusal of a host word with a nonzero reserved field, and
STATUS. -/

namespace Sys2Proof.Machine

open Sys2Proof.Claims

/-! ### Host words with a field that must be zero -/

/-- Every word fits the host command format, so decoding one is `decodeHost` (R60). -/
theorem decode_hcmdWord (w : Word) : decode .hcmdWord w = decodeHost w := if_pos (decide_eq_true w.isLt)

/-- NOP, ARM, QBUSY and STATUS have no operand: any of the 28 low bits set is a nonzero reserved field (R74). -/
theorem decode_operandlessOp_reservedField {op : BitVec 4} {x : BitVec 28}
    (hop : op = 0 ∨ op = 3 ∨ op = 4 ∨ op = 5) (hx : x ≠ 0) :
    decode .hcmdWord (op ++ x) = .error .reservedField := by
  rw [decode_hcmdWord]
  unfold decodeHost
  simp only [op28_op, op28_low]
  rcases hop with rfl | rfl | rfl | rfl <;> exact if_neg hx

/-- A host word that decodes to a nonzero reserved field is refused by the step that fetches it (R132). -/
theorem step_of_reservedField {s : State} {w : Word} {rest : List Item} (hs : s.script = .word .hcmdWord w :: rest)
    (hw : decode .hcmdWord w = .error .reservedField) :
    step s = .next (refusedWith .reservedField { s with script := rest, out := Out.empty }) := by
  rw [step_of_item hs rfl]
  simp only [runItem, runWord, hw]
  rfl

theorem refusesField_of_operandlessOp {op : BitVec 4} (hop : op = 0 ∨ op = 3 ∨ op = 4 ∨ op = 5) (s : State) :
    RefusesField op s :=
  fun _ _ hx hs => step_of_reservedField hs (decode_operandlessOp_reservedField hop hx)

/-! ### The fields of the status word (R75) -/

/-- The fields of more than one bit: what stands below a field is dropped, then what stands above it. -/
theorem statusWord_fields (s : State) :
    (statusWord s).extractLsb' 8 8 = s.e.index ∧ (statusWord s).extractLsb' 16 8 = s.e.checksum ∧
    (statusWord s).extractLsb' 25 3 = armedCode s.t ∧ (statusWord s).extractLsb' 28 4 = 0#4 := by
  refine ⟨?_, ?_, ?_, ?_⟩
  all_goals
    rw [statusWord, BitVec.extractLsb'_append_eq_of_le (by decide)]
    simp (disch := decide) only [BitVec.extractLsb'_append_eq_of_le, BitVec.extractLsb'_append_eq_of_add_le,
      Nat.reduceSub, BitVec.extractLsb'_eq_self]

/-- The state's code is the lowest field, with nothing below it. -/
theorem statusWord_code (s : State) : (statusWord s).extractLsb' 0 4 = s.e.state.code :=
  (BitVec.extractLsb'_append_eq_of_add_le (by decide)).trans BitVec.extractLsb'_eq_self

/-- The fields of one bit. -/
theorem statusWord_flags (s : State) :
    (statusWord s).getLsbD 4 = s.e.direction ∧ (statusWord s).getLsbD 5 = s.e.haveIndex ∧
    (statusWord s).getLsbD 6 = s.e.busy ∧ (statusWord s).getLsbD 7 = s.t.stopF ∧
    (statusWord s).getLsbD 24 = s.h.armed := by
  simp only [statusWord, BitVec.getLsbD_append, BitVec.getLsbD_ofBool]
  exact ⟨rfl, rfl, rfl, rfl, rfl⟩

/-- The armed-transfer code in numbers: 0 for no transfer, else 1 or 2 for input and 3 or 4 for output (R75). -/
theorem armedCode_toNat (t : Transport) :
    (armedCode t).toNat =
      if t.kind = none then 0
      else (if t.kind = some .inp then 0 else 2) + (if t.n = .one then 1 else 2) := by
  unfold armedCode
  cases t.kind with
  | none => rfl
  | some dir => cases dir <;> cases t.n <;> rfl

/-- Settles O46: op 5 has no operand, and STATUS answers with the status word, whose fields are those of the lemmas above. -/
theorem statusWordHasItsFields : Obligations.StatusWordHasItsFields := by
  intro s
  obtain ⟨hindex, hchecksum, htransfer, hhigh⟩ := statusWord_fields s
  obtain ⟨hdirection, hhaveIndex, hbusy, hstopF, harmed⟩ := statusWord_flags s
  have hcode := (congrArg BitVec.toNat htransfer).trans (armedCode_toNat s.t)
  exact ⟨refusesField_of_operandlessOp (by decide) s, statusWord s, rfl, statusWord_code s, hdirection, hhaveIndex,
    hbusy, hstopF, hindex, hchecksum, harmed, hcode, hhigh⟩

end Sys2Proof.Machine
end

section
/-! R83 to R90 and R92: what a bus symbol answers on an armed block, the clock of one bit, and the transfers of no bit
and of one bit. -/

namespace Sys2Proof.Machine

open Sys2Proof.Claims

/-! ### Start and stop conditions (R81 to R84) -/

theorem flagged_eq_false_of_quiet {t : Transport} (h : Quiet t) : flagged t = false := by
  obtain ⟨hstart, hdone⟩ := h
  simp [flagged, hstart, hdone]

/-- A start or stop condition that the master is free to make is what the detector does. -/
theorem busEdge_of_quiet (f : Transport → Transport) {s : State} (ha : s.h.armed = true) (hq : Quiet s.t)
    (hd : s.t.drive = true) : busEdge f s = .next { s with t := f s.t } := by
  simp [busEdge, ha, flagged_eq_false_of_quiet hq, hd]

theorem exec_clockOf (m : Bool) (s : State) : exec (clockOf m) s = busClock m s := by
  cases m <;> rfl

/-- A bus symbol is a clock, START or STOP (R70). -/
theorem busSym_cases {i : Instr} (h : i.format = .busSym) : (∃ m, i = clockOf m) ∨ i = .start ∨ i = .stop := by
  cases i with
  | clk0 => exact .inl ⟨false, rfl⟩
  | clk1 => exact .inl ⟨true, rfl⟩
  | start => exact .inr (.inl rfl)
  | stop => exact .inr (.inr rfl)
  | _ => cases h

/-- While a flag is pending on an armed block, no bus symbol is a move of the master (R81 (a)). -/
theorem exec_busSym_of_flagged {i : Instr} {s : State} (ha : s.h.armed = true) (hf : flagged s.t = true)
    (hi : i.format = .busSym) : exec i s = .refused .flagPending := by
  have hedge (f : Transport → Transport) : busEdge f s = .refused .flagPending := by simp [busEdge, ha, hf]
  rcases busSym_cases hi with ⟨m, rfl⟩ | rfl | rfl
  · rw [exec_clockOf]; simp [busClock, ha, hf]
  · exact hedge startCondition
  · exact hedge stopCondition

/-- A pending flag enables an armed engine without a fault (R94, R131). -/
theorem engineEnabled_of_flagged {s : State} (ha : s.h.armed = true) (hnf : s.fault = none)
    (hf : flagged s.t = true) : engineEnabled s = true := by
  simp [engineEnabled, engineLive, ha, hnf, hf]

/-- Settles O13: the flag that START raises enables the engine and takes every bus symbol from the master. -/
theorem startConditionRaisesStartFlag : Obligations.StartConditionRaisesStartFlag := by
  intro s ha hq hd
  exact ⟨busEdge_of_quiet startCondition ha hq hd, fun hnf => ⟨engineEnabled_of_flagged ha hnf rfl, rfl⟩,
    fun i hi => exec_busSym_of_flagged ha rfl hi⟩

/-- Settles O14: STOP_F is none of the flags that enable the engine (R94). -/
theorem stopConditionLatchesAndParks : Obligations.StopConditionLatchesAndParks := by
  intro s ha hq hd
  obtain ⟨hstart, hdone⟩ := hq
  refine ⟨busEdge_of_quiet stopCondition ha ⟨hstart, hdone⟩ hd, ?_⟩
  simp [engineEnabled, flagged, hstart, hdone]

/-! ### One clock (R86 to R88) -/

/-- What DONE reports of the sampled bits: all of a byte, or the last one alone (R86). -/
def sampledData (n : XferLen) (sr : Byte) : Byte :=
  match n with
  | .eight => sr
  | .one => bitByte (sr.getLsbD 0)

/-- The transport after the last bit of its transfer, with the sampled bits in `sr` (R86). -/
def completed (dir : Dir) (sr : Byte) (t : Transport) : Transport :=
  { t with
    sr := sr, cnt := 0, kind := none, drive := true
    doneF := true, doneKind := dir, doneN := t.n, doneData := sampledData t.n sr }

theorem shift_eq_completed (dir : Dir) (m : Bool) {t : Transport} (h : t.cnt = 1) :
    shift dir m t = completed dir (shiftIn t.sr (m && t.drive)) t := by
  rw [shift_last dir m t h]; rfl

/-- After a one-bit transfer DONE reports the line value of its clock, zero-extended (R86, R90). -/
theorem sampledData_one_shiftIn (sr : Byte) (v : Bool) : sampledData .one (shiftIn sr v) = if v then 1 else 0 := by
  rw [← bitByte_eq]
  exact congrArg bitByte (getLsbD_shiftIn sr v 0 (by decide))

theorem exec_clockOf_of_nothing_armed (m : Bool) {s : State} (ha : s.h.armed = true) (hq : Quiet s.t)
    (hk : s.t.kind = none) : exec (clockOf m) s = .next (sawLine m s) := by
  rw [exec_clockOf]
  simp [busClock, ha, flagged_eq_false_of_quiet hq, hk]

/-- A clock with a transfer armed is the shift, and the line is what both sides drive (R80, R87, R88). -/
theorem exec_clockOf_of_armed {dir : Dir} (m : Bool) {s : State} (ha : s.h.armed = true) (hq : Quiet s.t)
    (hk : s.t.kind = some dir) :
    exec (clockOf m) s = .next (sawLine (m && s.t.drive) { s with t := shift dir m s.t }) := by
  rw [exec_clockOf]
  simp [busClock, ha, flagged_eq_false_of_quiet hq, hk]

/-- The clock of a transfer's last bit completes it (R86). -/
theorem exec_clockOf_of_last_bit {dir : Dir} (m : Bool) {s : State} (ha : s.h.armed = true) (hq : Quiet s.t)
    (hk : s.t.kind = some dir) (hc : s.t.cnt = 1) :
    exec (clockOf m) s =
      .next (sawLine (m && s.t.drive) { s with t := completed dir (shiftIn s.t.sr (m && s.t.drive)) s.t }) := by
  rw [exec_clockOf_of_armed m ha hq hk, shift_eq_completed dir m hc]

/-- Settles O16: the clock is a shift, of the last bit or of another one. -/
theorem clockCarriesOutShift : Obligations.ClockCarriesOutShift := by
  intro s m ha hq
  refine ⟨exec_clockOf_of_nothing_armed m ha hq, fun dir hk => ⟨fun hc => ?_, fun hc => ?_⟩⟩
  · rw [exec_clockOf_of_armed m ha hq hk, shift_more dir m s.t hc]
    cases dir <;> rfl
  · have hdata : sampledData s.t.n (shiftIn s.t.sr (m && s.t.drive)) =
        if s.t.n = .eight then shiftIn s.t.sr (m && s.t.drive) else if m && s.t.drive then 1 else 0 := by
      cases s.t.n with
      | one => exact sampledData_one_shiftIn _ _
      | eight => rfl
    refine ⟨?_, fun hnf => ⟨engineEnabled_of_flagged ha hnf (Bool.or_true _), ?_⟩⟩
    · rw [exec_clockOf_of_last_bit m ha hq hk hc, completed, hdata]; rfl
    · obtain ⟨hstart, -⟩ := hq
      simp [pendingKind, hstart]

/-! ### Transport commands of no bit and of one bit (R89, R90, R92) -/

/-- Settles O19: T_DISARM leaves nothing armed for a clock to shift. -/
theorem disarmCancelsTheTransfer : Obligations.DisarmCancelsTheTransfer :=
  fun s => ⟨rfl, fun ha hq m => exec_clockOf_of_nothing_armed (s := { s with t := disarm s.t }) m ha hq rfl⟩

/-- Settles O20: the first clock of a one-bit transfer is its last, and the released line carries the master's bit. -/
theorem bitInSamplesTheMaster : Obligations.BitInSamplesTheMaster := by
  refine fun s => ⟨rfl, fun ha hq m => ?_⟩
  have hclock := exec_clockOf_of_last_bit (s := { s with t := armIn1 s.t }) m ha hq rfl rfl
  rw [armIn1_drive, Bool.and_true] at hclock
  exact ⟨_, hclock, rfl, rfl, rfl, sampledData_one_shiftIn s.t.sr m, rfl, rfl, rfl⟩

/-- Settles O22: the first clock of a one-bit transfer is its last, and the line carries the bits of both sides. -/
theorem bitOutDrivesTheLine : Obligations.BitOutDrivesTheLine := by
  intro s b
  rw [← bitByte_eq b]
  refine ⟨rfl, fun ha hq m => ?_⟩
  have hclock := exec_clockOf_of_last_bit (s := { s with t := armOut1 b s.t }) m ha hq rfl rfl
  exact ⟨_, hclock, rfl, rfl, rfl, sampledData_one_shiftIn s.t.sr (m && b), rfl, rfl, rfl⟩

end Sys2Proof.Machine
end

section
/-! R91 and R93: the clocks that carry an armed transfer from its first bit to its last, and the transfers of a byte. -/

namespace Sys2Proof.Machine

open Sys2Proof.Claims

/-! ### The clocks of a whole transfer (R86) -/

theorem execAll_cons_of_next {i : Instr} {is : List Instr} {s t : State} (h : exec i s = .next t) :
    execAll (i :: is) s = execAll is t := by
  simp only [execAll, h]

/-- What the block drives in a transfer on bit `n`, counted down to 0: nothing on the way in, bit `n` of the byte on
the way out (R86, R90 to R93). -/
def drivenBit (dir : Dir) (out : Byte) (n : Nat) : Bool :=
  match dir with
  | .inp => true
  | .out => out.getLsbD n

/-- The line values of the last clocks of a transfer, one for each bit of the master: that bit AND the block's (R80). -/
def transferLine (dir : Dir) (out : Byte) : List Bool → List Bool
  | [] => []
  | m :: ms => (m && drivenBit dir out ms.length) :: transferLine dir out ms

/-- A transfer is under way with bit `n`, counted down to 0, on the line next (R86). -/
structure AtBit (dir : Dir) (n : Nat) (t : Transport) : Prop where
  quiet : Quiet t
  kind : t.kind = some dir
  cnt : t.cnt.toNat = n + 1
  drive : t.drive = drivenBit dir t.out n

/-- A bit that is not the last: the line value goes into the shift register and the block drives the next bit (R86). -/
theorem AtBit.shift_eq {dir : Dir} {n : Nat} {t : Transport} (h : AtBit dir (n + 1) t) (m : Bool) :
    shift dir m t = { t with
      sr := shiftIn t.sr (m && drivenBit dir t.out (n + 1)), cnt := t.cnt - 1, drive := drivenBit dir t.out n } := by
  obtain ⟨-, -, hcnt, hdrive⟩ := h
  have hnext : (t.cnt - 1).toNat - 1 = n := by bv_omega
  rw [shift_more dir m t (by bv_omega), hnext, hdrive]
  cases dir <;> rfl

/-- The bit after one that is not the last (R86). -/
theorem AtBit.next {dir : Dir} {n : Nat} {t : Transport} (h : AtBit dir (n + 1) t) (m : Bool) :
    AtBit dir n (shift dir m t) := by
  rw [h.shift_eq m]
  obtain ⟨hquiet, hkind, hcnt, -⟩ := h
  exact ⟨hquiet, hkind, by simp only; bv_omega, rfl⟩

/-- As many clocks as a transfer has bits to come complete it with the line values sampled, and change nothing else
(R86). -/
theorem execAll_clocks_complete {dir : Dir} (ms : List Bool) : ∀ (m : Bool) (s : State), s.h.armed = true →
    AtBit dir ms.length s.t →
    execAll ((m :: ms).map clockOf) s = .next { s with
      t := completed dir ((transferLine dir s.t.out (m :: ms)).foldl shiftIn s.t.sr) s.t
      out := { s.out with line := s.out.line ++ transferLine dir s.t.out (m :: ms) } } := by
  induction ms with
  | nil =>
    intro m s ha hbit
    rw [List.map_cons, execAll_cons_of_next
      (exec_clockOf_of_last_bit m ha hbit.quiet hbit.kind (BitVec.eq_of_toNat_eq hbit.cnt)), hbit.drive]
    rfl
  | cons m' ms ih =>
    intro m s ha hbit
    rw [List.map_cons, execAll_cons_of_next (exec_clockOf_of_armed m ha hbit.quiet hbit.kind),
      ih m' _ (by exact ha) (by exact hbit.next m)]
    simp [hbit.shift_eq m, hbit.drive, transferLine, completed]

/-! ### Transport commands of a byte (R91, R93) -/

theorem transferLine_inp (out : Byte) (ms : List Bool) : transferLine .inp out ms = ms := by
  induction ms with
  | nil => rfl
  | cons m ms ih => simp [transferLine, drivenBit, ih]

/-- A master that releases the line reads the byte the block sends, bit 7 first (R61, R80). -/
theorem transferLine_out_released (v : Byte) : transferLine .out v (List.replicate 8 true) = byteBits v := rfl

/-- Settles O21: the released line carries the master's eight bits, and shifted in they are the byte. -/
theorem eightClocksDeliverTheByte : Obligations.EightClocksDeliverTheByte := by
  refine fun s => ⟨rfl, fun ha hq v => ?_⟩
  have hbit : AtBit .inp 7 (armIn8 s.t) := ⟨hq, rfl, rfl, rfl⟩
  have hclocks := execAll_clocks_complete (byteBits v).tail (v.getLsbD 7) { s with t := armIn8 s.t } ha hbit
  rw [transferLine_inp] at hclocks
  exact ⟨_, hclocks, rfl, rfl, rfl, eight_shifts s.t.sr v, rfl, rfl, rfl, rfl, rfl, rfl⟩

/-- Settles O23: eight clocks complete the transfer, and a master that releases the line reads the block's bits. -/
theorem eightReleasedClocksReadTheByte : Obligations.EightReleasedClocksReadTheByte := by
  refine fun s v => ⟨rfl, fun ha hq => ?_⟩
  have hbit : AtBit .out 7 (armOut8 v s.t) := ⟨hq, rfl, rfl, rfl⟩
  exact ⟨_, execAll_clocks_complete (List.replicate 7 true) true { s with t := armOut8 v s.t } ha hbit,
    congrArg (s.out.line ++ ·) (transferLine_out_released v), rfl, rfl, rfl, rfl, rfl, rfl, rfl, rfl⟩

end Sys2Proof.Machine
end

section
/-! R99 to R112: the rows of the dispatch table, and the next state of the engine on the event word of each row. -/

namespace Sys2Proof.Machine

open Sys2Proof.Claims

/-! ### The dispatch table (R99) -/

/-- The rows of the dispatch table for a DONE: the resting state, the event's kind, and what the engine does with the
event's data before it clears the flag (R96, R99). -/
inductive DoneRow : EState → EvKind → (Byte → State → State) → Prop where
  | addressIn : DoneRow .addressReceived .in8 addressReceived
  | indexIn : DoneRow .receiveIndexByte .in8 receiveIndexByte
  | dataIn : DoneRow .receiveByte .in8 receiveByte
  | ackOutBeforeIndex : DoneRow .receiveIndexByte .out1 fun _ => armNextByte
  | ackOutBeforeData : DoneRow .receiveByte .out1 fun _ => armNextByte
  | ackOutBeforeRead : DoneRow .transmitByte .out1 fun _ => transmitByte
  | nackOut : DoneRow .nackDone .out1 fun _ => nackDone
  | byteOut : DoneRow .ackSent .out8 fun _ => armMasterAck
  | masterAckIn : DoneRow .ackSent .in1 fun d => ackSent (d.getLsbD 0)

theorem engineLive_of_live {s : State} (h : Live s) : engineLive s = true := by
  obtain ⟨harmed, hfault⟩ := h
  simp [engineLive, harmed, hfault]

/-- A live engine takes the row of its state and then clears the DONE it serviced. -/
theorem engineStep_of_doneRow {x : EState} {k : EvKind} {act : Byte → State → State} (hrow : DoneRow x k act)
    {s : State} (hl : Live s) (hx : s.e.state = x) (d : Byte) : engineStep k d s = clearDone (act d s) := by
  rw [engineStep_of_live k d s (engineLive_of_live hl)]
  cases hrow <;> simp [dispatch, hx, EState.isResting]

/-- The answer to an event word of a row, in the form in which `exec` gives it. -/
theorem next_of_doneRow {x : EState} {k : EvKind} {act : Byte → State → State} (hrow : DoneRow x k act)
    {s t : State} (hl : Live s) (hx : s.e.state = x) (d : Byte) (ht : clearDone (act d s) = t) :
    (.next (engineStep k d s) : Host.Outcome State Fault Refusal) = .next t :=
  congrArg _ ((engineStep_of_doneRow hrow hl hx d).trans ht)

/-- A live engine runs the START handler in every resting state (R99, R101). -/
theorem engineStep_start_of_resting {s : State} (hl : Live s) (hr : s.e.state.isResting = true) (d : Byte) :
    engineStep .start d s = startHandler s := by
  rw [engineStep_of_live .start d s (engineLive_of_live hl)]
  simp [dispatch, hr]

/-! ### START, the index byte, the half-steps and the engine's own NACK (R101, R104 to R106, R110, R112) -/

/-- Settles O24: the START handler issues its disarm only if a stop is pending, and its arming after it. -/
theorem startEventOpensTheAddressPhase : Obligations.StartEventOpensTheAddressPhase := by
  intro s hl hr
  refine congrArg Host.Outcome.next ((engineStep_start_of_resting hl hr 0).trans ?_)
  unfold startHandler
  cases hstop : s.t.stopF with
  | false => rfl
  | true =>
    have hcmds : (s.out.cmds ++ [0x000#12]) ++ [0x200#12] = s.out.cmds ++ [0x000#12, 0x200#12] :=
      List.append_assoc ..
    simp only [engineOut, if_true, ← hcmds]
    rfl

/-- The state in which the engine has answered a byte with the acknowledge bit `b`, the endpoint now `e` (R92, R103). -/
def answered (b : Bool) (e : Endpoint) (s : State) : State :=
  { s with e := e, t := drivesBit s.t b, out := engineOut s.out [bitCommand b] 0b00#2 }

/-- Every index byte is loaded and acknowledged (R105, R106). -/
theorem clearDone_receiveIndexByte (d : Byte) (s : State) :
    clearDone (receiveIndexByte d s) =
      answered false { s.e with index := d, haveIndex := true, state := .receiveByte } s := rfl

theorem clearDone_armNextByte (s : State) :
    clearDone (armNextByte s) = { s with t := awaitsByte s.t, out := engineOut s.out [0x200#12] 0b00#2 } := rfl

theorem clearDone_armMasterAck (s : State) :
    clearDone (armMasterAck s) = { s with t := awaitsBit s.t, out := engineOut s.out [0x100#12] 0b00#2 } := rfl

/-- The endpoint reset as an engine step (R112, R148). -/
theorem clearDone_nackDone (s : State) :
    clearDone (nackDone s) = { s with
      e := resetEndpoint s.p s.e
      t := released s.t
      out := engineOut s.out [0x000#12] 0b00#2 } := rfl

/-- Settles O26: the row of an index byte in, which has no branch. -/
theorem indexByteIsLoadedAndAcknowledged : Obligations.IndexByteIsLoadedAndAcknowledged :=
  fun s d hl hx => next_of_doneRow .indexIn hl hx d (clearDone_receiveIndexByte d s)

/-- Settles O29: the rows of an acknowledge bit out and of a byte out, which drop the sampled data. -/
theorem halfStepsArmTheNextTransfer : Obligations.HalfStepsArmTheNextTransfer := by
  refine ⟨fun s b hl hx => ?_, fun s d hl hx => next_of_doneRow .byteOut hl hx d (clearDone_armMasterAck s)⟩
  rcases hx with hx | hx
  · exact next_of_doneRow .ackOutBeforeIndex hl hx (bitByte b) (clearDone_armNextByte s)
  · exact next_of_doneRow .ackOutBeforeData hl hx (bitByte b) (clearDone_armNextByte s)

/-- Settles O31: the row of the engine's own NACK bit out. -/
theorem nackDoneResetsTheEndpoint : Obligations.NackDoneResetsTheEndpoint :=
  fun s b hl hx => next_of_doneRow .nackOut hl hx (bitByte b) (clearDone_nackDone s)

/-! ### The address byte (R62, R63, R102, R103) -/

/-- The address matcher compares the upper seven bits of the address byte (R62, R102). -/
theorem addressMatcher_eq (d : Byte) (s : State) : (d.extractLsb' 1 7 == s.e.addr) = addressed s d := by
  have hhigh : (d.extractLsb' 1 7).toNat = d.toNat / 2 := by
    rw [BitVec.extractLsb'_toNat, Nat.shiftRight_eq_div_pow]
    exact Nat.mod_eq_of_lt (by omega)
  rw [Bool.eq_iff_iff, addressed, beq_iff_eq, beq_iff_eq, BitVec.toNat_eq, hhigh]

/-- The direction bit is the lowest bit of the address byte (R62, R63). -/
theorem directionBit_eq (d : Byte) : d.getLsbD 0 = asksRead d := by
  rw [asksRead, ← BitVec.testBit_toNat, Nat.testBit_zero]
  rfl

/-- Row AddressReceived by R103's tests, in their order: the match, the direction, the index held, the policy. -/
theorem clearDone_addressReceived (d : Byte) (s : State) :
    clearDone (addressReceived d s) = answered (addressBit s d) (afterAddress s d) s := by
  unfold addressReceived ackOrNack afterAddress addressBit startsAtZero
  rw [addressMatcher_eq, directionBit_eq]
  dsimp only
  cases addressed s d with
  | false => cases s.e.haveIndex <;> rfl
  | true =>
    cases asksRead d with
    | false => cases s.e.haveIndex <;> rfl
    | true =>
      cases s.e.haveIndex with
      | true => rfl
      | false => cases s.p.readWithoutIndex <;> rfl

/-- Settles O25: the row of an address byte in, with its matcher and its five outcomes. -/
theorem addressByteIsMatchedAndAnswered : Obligations.AddressByteIsMatchedAndAnswered :=
  fun s d hl hx => next_of_doneRow .addressIn hl hx d (clearDone_addressReceived d s)

/-! ### Data bytes (R107, R108) -/

/-- Inside the region the byte is stored at the index and acknowledged (R107). -/
theorem clearDone_receiveByte_inside (d : Byte) {s : State} (h : s.e.index.toNat < s.h.wlen.toNat) :
    clearDone (receiveByte d s) = { s with
      e := afterStore s.e
      t := drivesBit s.t false
      mem := s.mem.write (waddr s) d
      out := engineOut s.out [0x300#12] 0b01#2 } :=
  congrArg clearDone (if_pos (BitVec.lt_def.mpr h))

/-- Past the region nothing is stored and the byte is refused (R107, R108). -/
theorem clearDone_receiveByte_past (d : Byte) {s : State} (h : s.h.wlen.toNat ≤ s.e.index.toNat) :
    clearDone (receiveByte d s) = answered true { s.e with haveIndex := false, state := .nackDone } s :=
  congrArg clearDone (if_neg (BitVec.not_lt.mpr (BitVec.le_def.mpr h)))

/-- Settles O27: the row of a data byte in, whose two branches compare the index with the region's length. -/
theorem dataByteIsStoredOrRefused : Obligations.DataByteIsStoredOrRefused := by
  intro s d hl hx
  exact ⟨fun hinside => next_of_doneRow .dataIn hl hx d (clearDone_receiveByte_inside d hinside),
    fun hpast => next_of_doneRow .dataIn hl hx d (clearDone_receiveByte_past d hpast)⟩

/-! ### Bytes of a read (R109, R111) -/

/-- The state after the engine has armed the byte `v` out, the endpoint being `e` (R93, R109). -/
def sends (v : Byte) (e : Endpoint) (s : State) : State :=
  { s with e := e, t := drivesByte s.t v, out := engineOut s.out [0x4#4 ++ v] 0b10#2 }

/-- Inside the region its byte is sent, and the checksum takes it in (R109). -/
theorem clearDone_transmitByte_inside {s : State} (h : s.e.index.toNat < s.h.rlen.toNat) :
    clearDone (transmitByte s) = sends (s.mem.read (raddr s)) (afterDraw s.e (s.mem.read (raddr s))) s :=
  congrArg clearDone (if_pos (BitVec.lt_def.mpr h))

/-- Past the region the checksum is sent and stays as it is (R109). -/
theorem clearDone_transmitByte_past {s : State} (h : s.h.rlen.toNat ≤ s.e.index.toNat) :
    clearDone (transmitByte s) = sends s.e.checksum { s.e with state := .ackSent } s :=
  congrArg clearDone (if_neg (BitVec.not_lt.mpr (BitVec.le_def.mpr h)))

/-- The state with the index given up, which is what AckSent does first (R111). -/
def withoutIndex (s : State) : State := { s with e := { s.e with haveIndex := false } }

/-- The master's ACK draws the next byte (R111). -/
theorem clearDone_ackSent_ack (s : State) : clearDone (ackSent ACK s) = clearDone (transmitByte (withoutIndex s)) := rfl

/-- The master's NACK resets the endpoint, and the index stays given up whatever the policy (R111, R148). -/
theorem clearDone_ackSent_nack (s : State) :
    clearDone (ackSent NACK s) = { s with
      e := { resetEndpoint s.p s.e with haveIndex := false }
      t := released s.t
      out := engineOut s.out [0x000#12] 0b00#2 } := by
  have hreset : resetEndpoint s.p (withoutIndex s).e = { resetEndpoint s.p s.e with haveIndex := false } := by
    simp [resetEndpoint, withoutIndex]
  rw [← hreset]
  exact clearDone_nackDone (withoutIndex s)

/-- Settles O30: both states draw a byte by R109, AckSent once it has given up the index; R109 leads back to AckSent. -/
theorem readBytesAreDrawnOrTheChecksumRepeats : Obligations.ReadBytesAreDrawnOrTheChecksumRepeats := by
  intro s hl
  refine ⟨fun hx x => ?_, fun hx => ?_⟩
  · exact ⟨fun hinside => next_of_doneRow .ackOutBeforeRead hl hx (bitByte x) (clearDone_transmitByte_inside hinside),
      fun hpast => next_of_doneRow .ackOutBeforeRead hl hx (bitByte x) (clearDone_transmitByte_past hpast)⟩
  · refine ⟨fun hinside => next_of_doneRow .masterAckIn hl hx (bitByte false) ?_,
      fun hpast => next_of_doneRow .masterAckIn hl hx (bitByte false) ?_,
      next_of_doneRow .masterAckIn hl hx (bitByte true) (clearDone_ackSent_nack s)⟩
    · exact (clearDone_ackSent_ack s).trans (clearDone_transmitByte_inside (s := withoutIndex s) hinside)
    · refine (clearDone_ackSent_ack s).trans ((clearDone_transmitByte_past (s := withoutIndex s) hpast).trans ?_)
      rw [← hx]
      rfl

end Sys2Proof.Machine
end

section
/-! R119 to R123 and R128: registrations and their refusals, NOP and ARM, the busy query with its self-heal, and one
run of the commit consumer. -/

namespace Sys2Proof.Machine

open Sys2Proof.Claims

/-! ### Registrations (R120, R121) -/

/-- A registration is refused as in flight exactly when the host port is not free for it (R120, R155). -/
theorem inFlight_eq_false_iff_free (s : State) : inFlight s = false ↔ Free s := by
  unfold inFlight Free
  cases s.h.armed <;> simp [and_assoc]

theorem regRefusal_of_high_base {s : State} {base : Addr} (len : Byte) (h : 2 ^ s.p.addrWidth ≤ base.toNat) :
    regRefusal s base len = some .badBase := if_pos h

/-- With the base in the address space, a region that ends above it is the reason. -/
theorem regRefusal_of_long_region {s : State} {base : Addr} {len : Byte} (hb : ¬ 2 ^ s.p.addrWidth ≤ base.toNat)
    (hl : 2 ^ s.p.addrWidth < base.toNat + len.toNat) : regRefusal s base len = some .regionRange := by
  rw [regRefusal, if_neg hb, if_pos hl]

/-- With the region in the address space, only a session in flight is a reason. -/
theorem regRefusal_of_fitting_region {s : State} {base : Addr} {len : Byte} (hb : ¬ 2 ^ s.p.addrWidth ≤ base.toNat)
    (hl : ¬ 2 ^ s.p.addrWidth < base.toNat + len.toNat) :
    regRefusal s base len = if inFlight s then some .inFlight else none := by
  rw [regRefusal, if_neg hb, if_neg hl]

theorem registration_of_refusal (f : Addr → Byte → HostPort → HostPort) {null : Bool} {len : Byte} {base : Addr}
    {s : State} {r : RefuseReason} (h : regRefusal s (regBase null base) (regLen null len) = some r) :
    registration f null len base s = refusedWith r s := by
  simp only [registration, h]
  rfl

theorem registration_of_no_refusal (f : Addr → Byte → HostPort → HostPort) {null : Bool} {len : Byte} {base : Addr}
    {s : State} (h : regRefusal s (regBase null base) (regLen null len) = none) :
    registration f null len base s = { s with h := f (regBase null base) (regLen null len) s.h } := by
  simp only [registration, h]

/-- REGW and REGR are refused alike: the refusal does not depend on the descriptor to be written (R121). -/
theorem exec_registrations_of_refusal {null : Bool} {len : Byte} {base : Addr} {s : State} {r : RefuseReason}
    (h : regRefusal s (regBase null base) (regLen null len) = some r) :
    exec (.regw null len base) s = .next (refusedWith r s) ∧ exec (.regr null len base) s = .next (refusedWith r s) :=
  ⟨congrArg _ (registration_of_refusal setW h), congrArg _ (registration_of_refusal setR h)⟩

/-- Bits 24 to 26 of a registration word must be zero (R74). -/
theorem decode_registrationWord_reservedField {op : BitVec 4} {z : BitVec 3} (hop : op = 1 ∨ op = 2) (hz : z ≠ 0)
    (null : Bool) (len : Byte) (base : Addr) :
    decode .hcmdWord (op ++ BitVec.ofBool null ++ z ++ len ++ base) = .error .reservedField := by
  rw [decode_hcmdWord]
  unfold decodeHost
  simp only [regWord_op, regWord_zero]
  rcases hop with rfl | rfl <;> exact if_neg hz

/-- A source-level registration call longer than any command word can say is refused (R120, R132). -/
theorem hostRegister_of_long_call {n : Nat} (hn : 255 < n) (writable : Bool) (base : Addr) (s : State) :
    hostRegister writable (some base) n s = refusedWith .length s := if_pos hn

/-- Settles O41: the refusals of R120 in the order of their codes, and the two calls that never come to R120. -/
theorem registrationFollowsItsRule : Obligations.RegistrationFollowsItsRule := by
  intro s null len base b l tooHigh tooLong refusedBy
  refine ⟨fun hb => ?_, fun hb hl => ?_, fun hb hl hnotFree => ?_, fun hb hl hfree => ?_, fun op z rest hop hz hs => ?_,
    fun writable n rest hn hs _ _ _ => ?_⟩
  · exact exec_registrations_of_refusal (regRefusal_of_high_base l hb)
  · exact exec_registrations_of_refusal (regRefusal_of_long_region hb hl)
  · have hflight : inFlight s = true := by
      rwa [← inFlight_eq_false_iff_free, Bool.not_eq_false] at hnotFree
    exact exec_registrations_of_refusal ((regRefusal_of_fitting_region hb hl).trans (if_pos hflight))
  · have hnone : regRefusal s b l = none := by
      rw [regRefusal_of_fitting_region hb hl, (inFlight_eq_false_iff_free s).mpr hfree]
      rfl
    exact ⟨congrArg _ (registration_of_no_refusal setW hnone), congrArg _ (registration_of_no_refusal setR hnone)⟩
  · exact step_of_reservedField hs (decode_registrationWord_reservedField hop hz null len base)
  · exact (step_of_item hs rfl).trans (congrArg _ (hostRegister_of_long_call hn writable base (takeItem rest s)))

/-! ### NOP and ARM (R119, R122) -/

/-- ARM writes what an armed block holds already. -/
theorem exec_arm_of_armed {s : State} (h : s.h.armed = true) : exec .arm s = .next s := by
  have hsame : { s.h with armed := true } = s.h := by rw [← h]
  exact congrArg (fun h => Host.Outcome.next { s with h := h }) hsame

/-- Settles O44: neither op has an operand. -/
theorem nopChangesNothingAndArmOnlyArms : Obligations.NopChangesNothingAndArmOnlyArms :=
  fun s => ⟨rfl, refusesField_of_operandlessOp (by decide) s, rfl, exec_arm_of_armed,
    refusesField_of_operandlessOp (by decide) s⟩

/-! ### The busy query (R123) -/

theorem parked_iff (s : State) : parked s = true ↔ s.p.healScope = .wide ∨ s.e.state = .receiveByte := by
  simp [parked]

/-- A latched stop answers for the end of a parked session: the query does not call it busy. -/
theorem busyAnswer_of_parked_stop {s : State} (hstop : s.t.stopF = true) (hparked : parked s = true) :
    busyAnswer s = false := by
  cases hbusy : s.e.busy <;> simp [busyAnswer, heals, hbusy, hstop, hparked]

theorem busyAnswer_of_busy_unhealed {s : State} (hbusy : s.e.busy = true) (h : s.t.stopF = false ∨ parked s = false) :
    busyAnswer s = true := by
  rcases h with h | h <;> simp [busyAnswer, heals, hbusy, h]

theorem busyAnswer_of_not_busy {s : State} (hbusy : s.e.busy = false) : busyAnswer s = false := by
  simp [busyAnswer, hbusy]

/-- The query writes `E.busy` and the response word from the one answer. -/
theorem exec_qbusy_of_answer {s : State} {b : Bool} (h : busyAnswer s = b) :
    exec .qbusy s = .next { s with
      e := { s.e with busy := b }
      out := { s.out with resp := some (0#31 ++ BitVec.ofBool b) } } := by
  rw [← h]
  rfl

/-- Settles O45: the heal is a stop latched with the engine parked. -/
theorem busyQueryAnswersAndHeals : Obligations.BusyQueryAnswersAndHeals := by
  intro s parkedHere respond
  refine ⟨fun _ hstop hparked => ?_, fun hbusy hunhealed => ?_, fun hbusy => ?_,
    refusesField_of_operandlessOp (by decide) s⟩
  · exact exec_qbusy_of_answer (busyAnswer_of_parked_stop hstop ((parked_iff s).mpr hparked))
  · have hunparked : ¬ parkedHere ↔ parked s = false := by rw [← Bool.not_eq_true, parked_iff]
    exact exec_qbusy_of_answer (busyAnswer_of_busy_unhealed hbusy (hunhealed.imp_right hunparked.mp))
  · exact exec_qbusy_of_answer (busyAnswer_of_not_busy hbusy)

/-! ### The commit consumer (R128) -/

/-- The commit test, after the query has healed `E.busy` or left it. -/
theorem commits_queryBusy_iff (s : State) :
    commits (queryBusy s) = true ↔
      (s.e.busy = false ∨ heals s = true) ∧ 1 ≤ s.h.wlen.toNat ∧
        s.mem.read (regionAddr s.p s.h.wbase 0) &&& s.p.commitMask = s.p.commitMagic := by
  have hwlen : s.h.wlen ≠ 0 ↔ 1 ≤ s.h.wlen.toNat := by
    rw [Nat.one_le_iff_ne_zero, ne_eq, ne_eq, BitVec.toNat_eq]
    rfl
  simp [commits, busyAnswer, controlWord, ← hwlen, and_assoc]

/-- Settles O47: the tick is the query and then the commit or nothing. -/
theorem commitTickAdoptsTheWholePayload : Obligations.CommitTickAdoptsTheWholePayload := by
  intro s rest hs healed u control commit
  have hcommits : commits (queryBusy (takeItem rest s)) = true ↔ commit := commits_queryBusy_iff (takeItem rest s)
  rw [step_of_item hs rfl]
  rcases commitTick_cases (takeItem rest s) with ⟨hno, htick⟩ | ⟨hyes, htick⟩
  · refine ⟨fun hc => ?_, fun _ => congrArg _ htick⟩
    rw [hcommits.mpr hc] at hno
    cases hno
  · exact ⟨fun _ => congrArg _ htick, fun hc => absurd (hcommits.mp hyes) hc⟩

end Sys2Proof.Machine
end

section
/-! R147: what a power-on reset leaves in `E`, `H` and `T`, and the engine step it does not enable. -/

namespace Sys2Proof.Machine

/-- No flag enables a step of an engine that has not been armed (R94). -/
theorem engineEnabled_of_unarmed {s : State} (ha : s.h.armed = false) : engineEnabled s = false := by
  simp [engineEnabled, engineLive, ha]

/-- Settles O9: the fields are the table of R36 as the reset writes them, whose `armed` disables the engine. -/
theorem powerOnValues : Obligations.PowerOnValues := by
  intro p a m sh sc s
  have hunarmed : s.h.armed = false := rfl
  exact ⟨rfl, rfl, rfl, rfl, rfl, rfl, rfl, engineEnabled_of_unarmed hunarmed⟩

end Sys2Proof.Machine
end

section
/-! R60 to R74 and R77: every word of a format by its fields, what each decodes to, and the round trip between
instructions and words. -/

namespace Sys2Proof

/-! ### Words by their fields -/

/-- Two neighbouring fields of a word, joined. -/
theorem extract_append_extract {w : Nat} (x : BitVec w) (k m n : Nat) :
    x.extractLsb' (k + m) n ++ x.extractLsb' k m = x.extractLsb' k (n + m) :=
  BitVec.extractLsb'_append_extractLsb'_eq_extractLsb' rfl

/-- A word that fits in the low `k` bits has nothing above them. -/
theorem extract_high_of_lt {w : Word} {k n : Nat} (h : w.toNat < 2 ^ k) : w.extractLsb' k n = 0#n := by
  apply BitVec.eq_of_toNat_eq
  rw [BitVec.extractLsb'_toNat, Nat.shiftRight_eq_div_pow, Nat.div_eq_of_lt h]
  simp

theorem ofBool_getLsbD {w : Nat} (x : BitVec w) (i : Nat) : BitVec.ofBool (x.getLsbD i) = x.extractLsb' i 1 := by
  apply BitVec.eq_of_getLsbD_eq
  intro j hj
  obtain rfl : j = 0 := by omega
  simp

/-- A word of twelve bits is a kind or command over a data byte (R71, R72). -/
theorem exists_wordOf12 {w : Word} (h : w.toNat < 2 ^ 12) : ∃ k d, w = wordOf12 k d := by
  refine ⟨w.extractLsb' 8 4, w.extractLsb' 0 8, ?_⟩
  rw [wordOf12, ← extract_high_of_lt (n := 20) h, extract_append_extract w 8 4 20]
  exact ((extract_append_extract w 0 8 24).trans BitVec.extractLsb'_eq_self).symm

/-- A word of eight bits is a byte (R65 to R67). -/
theorem exists_byteWord {w : Word} (h : w.toNat < 2 ^ 8) : ∃ v : Byte, w = 0#24 ++ v := by
  refine ⟨w.extractLsb' 0 8, ?_⟩
  rw [← extract_high_of_lt (n := 24) h]
  exact ((extract_append_extract w 0 8 24).trans BitVec.extractLsb'_eq_self).symm

/-- A word of eight bits is an address over a direction bit (R62). -/
theorem exists_addrWord {w : Word} (h : w.toNat < 2 ^ 8) :
    ∃ (a : BitVec 7) (d : Bool), w = 0#24 ++ a ++ BitVec.ofBool d := by
  refine ⟨w.extractLsb' 1 7, w.getLsbD 0, ?_⟩
  rw [← extract_high_of_lt (n := 24) h, extract_append_extract w 1 7 24, ofBool_getLsbD]
  exact ((extract_append_extract w 0 1 31).trans BitVec.extractLsb'_eq_self).symm

/-- Every host word is an op over 28 bits (R74). -/
theorem exists_op28 (w : Word) : ∃ (op : BitVec 4) (x : BitVec 28), w = op ++ x :=
  ⟨w.extractLsb' 28 4, w.extractLsb' 0 28,
    ((extract_append_extract w 0 28 4).trans BitVec.extractLsb'_eq_self).symm⟩

/-- The 28 bits under an op are the fields of a registration (R74). -/
theorem exists_regFields (op : BitVec 4) (x : BitVec 28) :
    ∃ (null : Bool) (z : BitVec 3) (len : Byte) (base : Addr),
      (op ++ x : Word) = op ++ BitVec.ofBool null ++ z ++ len ++ base := by
  generalize hw : (op ++ x : Word) = w
  have hop : w.extractLsb' 28 4 = op := hw ▸ op28_op op x
  refine ⟨w.getLsbD 27, w.extractLsb' 24 3, w.extractLsb' 16 8, w.extractLsb' 0 16, ?_⟩
  rw [← hop, ofBool_getLsbD, extract_append_extract w 27 1 4, extract_append_extract w 24 3 5,
    extract_append_extract w 16 8 8]
  exact ((extract_append_extract w 0 16 16).trans BitVec.extractLsb'_eq_self).symm

/-- A data byte whose upper seven bits are 0 is a 1-bit operand (R71, R72). -/
theorem bitByte_of_high {d : Byte} (h : d.extractLsb' 1 7 = 0) : bitByte (d.getLsbD 0) = d := by
  rw [bitByte, ← BitVec.ofNat_eq_ofNat, ← h, ofBool_getLsbD]
  exact (extract_append_extract d 0 1 7).trans BitVec.extractLsb'_eq_self

/-! ### Event words (R71) -/

theorem decode_evWord (k : BitVec 4) (d : Byte) : decode .evWord (wordOf12 k d) = decodeEvent (wordOf12 k d) :=
  if_pos (decide_eq_true (wordOf12_fits k d))

/-- A START word with data bits set goes by its kind but is no instruction of the table. -/
theorem decode_evWord_start (d : Byte) :
    decode .evWord (wordOf12 1 d) = if d = 0 then .ok .evStart else .error (.looseEvent (1#4 ++ d)) := by
  rw [decode_evWord, decodeEvent, wordOf12_kind, wordOf12_data, wordOf12_all]; rfl

theorem decode_evWord_in1 (d : Byte) :
    decode .evWord (wordOf12 2 d) =
      if d.extractLsb' 1 7 = 0 then .ok (.evDoneIn1 (d.getLsbD 0)) else .error (.looseEvent (2#4 ++ d)) := by
  rw [decode_evWord, decodeEvent, wordOf12_kind, wordOf12_data, wordOf12_all]; rfl

theorem decode_evWord_in8 (d : Byte) : decode .evWord (wordOf12 3 d) = .ok (.evDoneIn8 d) := by
  rw [decode_evWord, decodeEvent, wordOf12_kind, wordOf12_data]; rfl

theorem decode_evWord_out1 (d : Byte) :
    decode .evWord (wordOf12 4 d) =
      if d.extractLsb' 1 7 = 0 then .ok (.evDoneOut1 (d.getLsbD 0)) else .error (.looseEvent (4#4 ++ d)) := by
  rw [decode_evWord, decodeEvent, wordOf12_kind, wordOf12_data, wordOf12_all]; rfl

theorem decode_evWord_out8 (d : Byte) : decode .evWord (wordOf12 5 d) = .ok (.evDoneOut8 d) := by
  rw [decode_evWord, decodeEvent, wordOf12_kind, wordOf12_data]; rfl

theorem decode_evWord_reserved {k : BitVec 4} (hk : k.toNat = 0 ∨ 6 ≤ k.toNat) (d : Byte) :
    decode .evWord (wordOf12 k d) = .error (.reservedEvent (k ++ d)) := by
  rw [decode_evWord, decodeEvent, wordOf12_kind, wordOf12_all]
  split
  case h_6 => rfl
  all_goals omega

/-! ### Transport commands (R72) -/

theorem decode_tcmdWord (k : BitVec 4) (d : Byte) : decode .tcmdWord (wordOf12 k d) = decodeCommand (wordOf12 k d) :=
  if_pos (decide_eq_true (wordOf12_fits k d))

theorem decode_tcmdWord_disarm (d : Byte) :
    decode .tcmdWord (wordOf12 0 d) = if d = 0 then .ok .tDisarm else .error (.looseCommand (0#4 ++ d)) := by
  rw [decode_tcmdWord, decodeCommand, wordOf12_kind, wordOf12_data, wordOf12_all]; rfl

theorem decode_tcmdWord_in1 (d : Byte) :
    decode .tcmdWord (wordOf12 1 d) = if d = 0 then .ok .tIn1 else .error (.looseCommand (1#4 ++ d)) := by
  rw [decode_tcmdWord, decodeCommand, wordOf12_kind, wordOf12_data, wordOf12_all]; rfl

theorem decode_tcmdWord_in8 (d : Byte) :
    decode .tcmdWord (wordOf12 2 d) = if d = 0 then .ok .tIn8 else .error (.looseCommand (2#4 ++ d)) := by
  rw [decode_tcmdWord, decodeCommand, wordOf12_kind, wordOf12_data, wordOf12_all]; rfl

theorem decode_tcmdWord_out1 (d : Byte) :
    decode .tcmdWord (wordOf12 3 d) =
      if d.extractLsb' 1 7 = 0 then .ok (.tOut1 (d.getLsbD 0)) else .error (.looseCommand (3#4 ++ d)) := by
  rw [decode_tcmdWord, decodeCommand, wordOf12_kind, wordOf12_data, wordOf12_all]; rfl

theorem decode_tcmdWord_out8 (v : Byte) : decode .tcmdWord (wordOf12 4 v) = .ok (.tOut8 v) := by
  rw [decode_tcmdWord, decodeCommand, wordOf12_kind, wordOf12_data]; rfl

theorem decode_tcmdWord_reserved {k : BitVec 4} (hk : 5 ≤ k.toNat) (d : Byte) :
    decode .tcmdWord (wordOf12 k d) = .error (.reservedCommand (k ++ d)) := by
  rw [decode_tcmdWord, decodeCommand, wordOf12_kind, wordOf12_all]
  split
  case h_6 => rfl
  all_goals omega

/-! ### Host commands (R74) -/

theorem decode_hcmdWord_nop : decode .hcmdWord (0#4 ++ 0#28) = .ok .nop := rfl
theorem decode_hcmdWord_arm : decode .hcmdWord (3#4 ++ 0#28) = .ok .arm := rfl
theorem decode_hcmdWord_qbusy : decode .hcmdWord (4#4 ++ 0#28) = .ok .qbusy := rfl
theorem decode_hcmdWord_status : decode .hcmdWord (5#4 ++ 0#28) = .ok .status := rfl

theorem decode_hcmdWord_regw (null : Bool) (len : Byte) (base : Addr) :
    decode .hcmdWord (1#4 ++ BitVec.ofBool null ++ 0#3 ++ len ++ base) = .ok (.regw null len base) := by
  rw [Machine.decode_hcmdWord, decodeHost, regWord_op, regWord_zero, regWord_null, regWord_len, regWord_base]; rfl

theorem decode_hcmdWord_regr (null : Bool) (len : Byte) (base : Addr) :
    decode .hcmdWord (2#4 ++ BitVec.ofBool null ++ 0#3 ++ len ++ base) = .ok (.regr null len base) := by
  rw [Machine.decode_hcmdWord, decodeHost, regWord_op, regWord_zero, regWord_null, regWord_len, regWord_base]; rfl

theorem decode_hcmdWord_reserved {op : BitVec 4} (hop : 6 ≤ op.toNat) (x : BitVec 28) :
    decode .hcmdWord (op ++ x) = .error .reservedOp := by
  rw [Machine.decode_hcmdWord, decodeHost, op28_op]
  split
  case h_7 => rfl
  all_goals omega

/-! ### The round trip -/

theorem decode_wireAddr (a : BitVec 7) (d : Bool) :
    decode .wireAddr (0#24 ++ a ++ BitVec.ofBool d) = .ok (.addr a d) :=
  (if_pos (Laws.Fits.addr a d)).trans (by rw [addrWord_addr, addrWord_dir])

theorem decode_wireIndex (v : Byte) : decode .wireIndex (0#24 ++ v) = .ok (.index v) :=
  (if_pos (Laws.Fits.index v)).trans (by rw [byteWord_byte])

theorem decode_wireData (v : Byte) : decode .wireData (0#24 ++ v) = .ok (.dataW v) :=
  (if_pos (Laws.Fits.dataW v)).trans (by rw [byteWord_byte])

theorem decode_wireTx (v : Byte) : decode .wireTx (0#24 ++ v) = .ok (.dataR v) :=
  (if_pos (Laws.Fits.dataR v)).trans (by rw [byteWord_byte])

theorem decode_evWord_in1_bit (b : Bool) : decode .evWord (wordOf12 2 (bitByte b)) = .ok (.evDoneIn1 b) := by
  rw [decode_evWord_in1, if_pos (bitByte_high b), bitByte_low]

theorem decode_evWord_out1_bit (b : Bool) : decode .evWord (wordOf12 4 (bitByte b)) = .ok (.evDoneOut1 b) := by
  rw [decode_evWord_out1, if_pos (bitByte_high b), bitByte_low]

theorem decode_tcmdWord_out1_bit (b : Bool) : decode .tcmdWord (wordOf12 3 (bitByte b)) = .ok (.tOut1 b) := by
  rw [decode_tcmdWord_out1, if_pos (bitByte_high b), bitByte_low]

/-- Settles O2: each instruction by the law of its word. -/
theorem decodeOfEncodeIsTheInstruction : Obligations.DecodeOfEncodeIsTheInstruction
  | .clk0 | .clk1 | .start | .stop | .ack | .nack => rfl
  | .addr a d => decode_wireAddr a d
  | .index v => decode_wireIndex v
  | .dataW v => decode_wireData v
  | .dataR v => decode_wireTx v
  | .evStart => decode_evWord_start 0
  | .evDoneIn1 b => decode_evWord_in1_bit b
  | .evDoneIn8 d => decode_evWord_in8 d
  | .evDoneOut1 b => decode_evWord_out1_bit b
  | .evDoneOut8 d => decode_evWord_out8 d
  | .tDisarm => decode_tcmdWord_disarm 0
  | .tIn1 => decode_tcmdWord_in1 0
  | .tIn8 => decode_tcmdWord_in8 0
  | .tOut1 b => decode_tcmdWord_out1_bit b
  | .tOut8 v => decode_tcmdWord_out8 v
  | .nop => decode_hcmdWord_nop
  | .regw null len base => decode_hcmdWord_regw null len base
  | .regr null len base => decode_hcmdWord_regr null len base
  | .arm => decode_hcmdWord_arm
  | .qbusy => decode_hcmdWord_qbusy
  | .status => decode_hcmdWord_status

/-- The instruction stands in the format `f` for the word `w`. -/
def Spells (f : Format) (w : Word) (i : Instr) : Prop := i.format = f ∧ encode i = w

/-- If a word's instruction spells it, so does whatever the word decodes to. -/
theorem spells_of_decode {f : Format} {w : Word} {i j : Instr} (h : decode f w = .ok i) (hj : decode f w = .ok j)
    (hs : Spells f w j) : Spells f w i := by
  rw [h] at hj
  cases hj
  exact hs

/-- The same for a word that must have a field of a certain value to be an instruction. -/
theorem spells_of_decode_ite {f : Format} {w : Word} {i j : Instr} {c : Prop} [Decidable c] {e : DecodeError}
    (h : decode f w = .ok i) (hj : decode f w = if c then .ok j else .error e) (hs : c → Spells f w j) :
    Spells f w i := by
  by_cases hc : c
  · exact spells_of_decode h (hj.trans (if_pos hc)) (hs hc)
  · rw [hj, if_neg hc] at h
    cases h

/-- The kinds of R71, and the reserved ones. -/
theorem eventKind_cases (k : BitVec 4) :
    k = 1 ∨ k = 2 ∨ k = 3 ∨ k = 4 ∨ k = 5 ∨ (k.toNat = 0 ∨ 6 ≤ k.toNat) := by
  revert k; decide

/-- The commands of R72, and the reserved ones. -/
theorem commandKind_cases (k : BitVec 4) : k = 0 ∨ k = 1 ∨ k = 2 ∨ k = 3 ∨ k = 4 ∨ 5 ≤ k.toNat := by
  revert k; decide

/-- The ops of R74, and the reserved ones. -/
theorem hostOp_cases (op : BitVec 4) :
    op = 0 ∨ op = 1 ∨ op = 2 ∨ op = 3 ∨ op = 4 ∨ op = 5 ∨ 6 ≤ op.toNat := by
  revert op; decide

theorem spells_of_decode_evWord {w : Word} (hw : w.toNat < 2 ^ 12) {i : Instr} (h : decode .evWord w = .ok i) :
    Spells .evWord w i := by
  obtain ⟨k, d, rfl⟩ := exists_wordOf12 hw
  rcases eventKind_cases k with rfl | rfl | rfl | rfl | rfl | hk
  · exact spells_of_decode_ite h (decode_evWord_start d) fun hd => ⟨rfl, by rw [hd]; rfl⟩
  · exact spells_of_decode_ite h (decode_evWord_in1 d) fun hd => ⟨rfl, congrArg (wordOf12 2) (bitByte_of_high hd)⟩
  · exact spells_of_decode h (decode_evWord_in8 d) ⟨rfl, rfl⟩
  · exact spells_of_decode_ite h (decode_evWord_out1 d) fun hd => ⟨rfl, congrArg (wordOf12 4) (bitByte_of_high hd)⟩
  · exact spells_of_decode h (decode_evWord_out8 d) ⟨rfl, rfl⟩
  · rw [decode_evWord_reserved hk] at h; cases h

theorem spells_of_decode_tcmdWord {w : Word} (hw : w.toNat < 2 ^ 12) {i : Instr} (h : decode .tcmdWord w = .ok i) :
    Spells .tcmdWord w i := by
  obtain ⟨k, d, rfl⟩ := exists_wordOf12 hw
  rcases commandKind_cases k with rfl | rfl | rfl | rfl | rfl | hk
  · exact spells_of_decode_ite h (decode_tcmdWord_disarm d) fun hd => ⟨rfl, by rw [hd]; rfl⟩
  · exact spells_of_decode_ite h (decode_tcmdWord_in1 d) fun hd => ⟨rfl, by rw [hd]; rfl⟩
  · exact spells_of_decode_ite h (decode_tcmdWord_in8 d) fun hd => ⟨rfl, by rw [hd]; rfl⟩
  · exact spells_of_decode_ite h (decode_tcmdWord_out1 d) fun hd => ⟨rfl, congrArg (wordOf12 3) (bitByte_of_high hd)⟩
  · exact spells_of_decode h (decode_tcmdWord_out8 d) ⟨rfl, rfl⟩
  · rw [decode_tcmdWord_reserved hk] at h; cases h

/-- Ops without an operand: only the 28 low bits 0 make an instruction. -/
theorem spells_of_operandless {op : BitVec 4} (hop : op = 0 ∨ op = 3 ∨ op = 4 ∨ op = 5) {x : BitVec 28} {i j : Instr}
    (h : decode .hcmdWord (op ++ x) = .ok i) (hj : decode .hcmdWord (op ++ 0#28) = .ok j)
    (hs : Spells .hcmdWord (op ++ 0#28) j) : Spells .hcmdWord (op ++ x) i := by
  by_cases hx : x = 0
  · subst hx
    exact spells_of_decode h hj hs
  · rw [Machine.decode_operandlessOp_reservedField hop hx] at h
    cases h

/-- Registrations: only a zero field of 0 makes an instruction. -/
theorem spells_of_registration {op : BitVec 4} (hop : op = 1 ∨ op = 2) {x : BitVec 28} {i : Instr}
    {reg : Bool → Byte → Addr → Instr} (h : decode .hcmdWord (op ++ x) = .ok i)
    (hreg : ∀ null len base, decode .hcmdWord (op ++ BitVec.ofBool null ++ 0#3 ++ len ++ base) = .ok (reg null len base))
    (hs : ∀ null len base, Spells .hcmdWord (op ++ BitVec.ofBool null ++ 0#3 ++ len ++ base) (reg null len base)) :
    Spells .hcmdWord (op ++ x) i := by
  obtain ⟨null, z, len, base, hw⟩ := exists_regFields op x
  rw [hw] at h ⊢
  by_cases hz : z = 0
  · subst hz
    exact spells_of_decode h (hreg null len base) (hs null len base)
  · rw [Machine.decode_registrationWord_reservedField hop hz] at h
    cases h

theorem spells_of_decode_hcmdWord {w : Word} {i : Instr} (h : decode .hcmdWord w = .ok i) : Spells .hcmdWord w i := by
  obtain ⟨op, x, rfl⟩ := exists_op28 w
  rcases hostOp_cases op with rfl | rfl | rfl | rfl | rfl | rfl | hop
  · exact spells_of_operandless (by decide) h decode_hcmdWord_nop ⟨rfl, rfl⟩
  · exact spells_of_registration (by decide) h decode_hcmdWord_regw fun _ _ _ => ⟨rfl, rfl⟩
  · exact spells_of_registration (by decide) h decode_hcmdWord_regr fun _ _ _ => ⟨rfl, rfl⟩
  · exact spells_of_operandless (by decide) h decode_hcmdWord_arm ⟨rfl, rfl⟩
  · exact spells_of_operandless (by decide) h decode_hcmdWord_qbusy ⟨rfl, rfl⟩
  · exact spells_of_operandless (by decide) h decode_hcmdWord_status ⟨rfl, rfl⟩
  · rw [decode_hcmdWord_reserved hop] at h; cases h

theorem spells_of_decode_busSym {w : Word} (hw : w.toNat < 2 ^ 2) {i : Instr} (h : decode .busSym w = .ok i) :
    Spells .busSym w i := by
  have hw4 : w = 0 ∨ w = 1 ∨ w = 2 ∨ w = 3 := by bv_omega
  rcases hw4 with rfl | rfl | rfl | rfl <;> cases h <;> exact ⟨rfl, rfl⟩

theorem spells_of_decode_wireAck {w : Word} (hw : w.toNat < 2 ^ 1) {i : Instr} (h : decode .wireAck w = .ok i) :
    Spells .wireAck w i := by
  have hw2 : w = 0 ∨ w = 1 := by bv_omega
  rcases hw2 with rfl | rfl <;> cases h <;> exact ⟨rfl, rfl⟩

/-- A word that is too wide decodes to nothing (R60). -/
theorem decode_of_not_fits {f : Format} {w : Word} (h : f.fits w = false) : decode f w = .error .tooWide :=
  if_neg (by rw [h]; decide)

/-- Settles O3: format by format, a word by its fields. -/
theorem encodeOfDecodeIsTheWord : Obligations.EncodeOfDecodeIsTheWord := by
  intro f w i h
  have hfits : w.toNat < 2 ^ f.width := by
    by_contra hn
    rw [decode_of_not_fits (decide_eq_false hn)] at h
    cases h
  cases f with
  | busSym => exact spells_of_decode_busSym hfits h
  | wireAddr =>
    obtain ⟨a, d, rfl⟩ := exists_addrWord hfits
    exact spells_of_decode h (decode_wireAddr a d) ⟨rfl, rfl⟩
  | wireIndex =>
    obtain ⟨v, rfl⟩ := exists_byteWord hfits
    exact spells_of_decode h (decode_wireIndex v) ⟨rfl, rfl⟩
  | wireData =>
    obtain ⟨v, rfl⟩ := exists_byteWord hfits
    exact spells_of_decode h (decode_wireData v) ⟨rfl, rfl⟩
  | wireTx =>
    obtain ⟨v, rfl⟩ := exists_byteWord hfits
    exact spells_of_decode h (decode_wireTx v) ⟨rfl, rfl⟩
  | wireAck => exact spells_of_decode_wireAck hfits h
  | evWord => exact spells_of_decode_evWord hfits h
  | tcmdWord => exact spells_of_decode_tcmdWord hfits h
  | hcmdWord => exact spells_of_decode_hcmdWord h

/-- Settles O4: the clauses are the laws of the reserved words. -/
theorem reservedWordsAreRejectedByName : Obligations.ReservedWordsAreRejectedByName :=
  ⟨fun _ d hk => decode_evWord_reserved hk d, fun _ d hk => decode_tcmdWord_reserved hk d,
    fun _ x hop => decode_hcmdWord_reserved hop x, fun _ _ hop hx => Machine.decode_operandlessOp_reservedField hop hx,
    fun _ null _ len base hop hz => Machine.decode_registrationWord_reservedField hop hz null len base⟩

/-- Settles O1: the decoder at eight words. -/
theorem spelledWordsDecode : Obligations.SpelledWordsDecode := by
  unfold Obligations.SpelledWordsDecode
  decide

end Sys2Proof
end

section
/-! R17, R37, R98, R131: the invariant of the block under the duties, operation by operation, and the runs from
power-on. -/

namespace Sys2Proof.Safety

open Sys2Proof.Machine Sys2Proof.Claims

/-! ### The invariant in two halves -/

/-- The half of the invariant about the regions, the memory and the script, which the engine and the bus keep by what
they leave alone. -/
structure HostOk (s : State) : Prop where
  params : s.p.wf = true
  wRegion : s.p.regionFits s.h.wbase s.h.wlen = true
  rRegion : s.p.regionFits s.h.rbase s.h.rlen = true
  memCanonical : s.mem.wf
  memInRange : Memory.below (2 ^ s.p.addrWidth) s.mem
  dutiful : ∀ it ∈ s.script, itemDutiful it = true

/-- The half about the engine and the transport, which the host keeps by what it leaves alone. -/
structure EngineOk (s : State) : Prop where
  resting : s.e.state.isResting = true
  transport : TransportOk s.t
  waits : EngineWaits s
  idleClean : s.e.state = .idle →
    s.e.busy = false ∧ s.e.checksum = s.p.checksumSeed ∧ s.t.kind = none ∧ s.t.doneF = false
  unarmedQuiet : s.h.armed = false → s.e.state = .idle ∧ flagged s.t = false
  noFault : s.fault = none

theorem inv_of_halves {s : State} (h : HostOk s) (e : EngineOk s) : Inv s :=
  ⟨h.params, h.wRegion, h.rRegion, e.resting, e.transport, e.waits, e.idleClean, e.unarmedQuiet, h.memCanonical,
    h.memInRange, e.noFault, h.dutiful⟩

theorem Inv.hostOk {s : State} (h : Inv s) : HostOk s :=
  ⟨h.params, h.wRegion, h.rRegion, h.memCanonical, h.memInRange, h.dutiful⟩

theorem Inv.engineOk {s : State} (h : Inv s) : EngineOk s :=
  ⟨h.resting, h.transport, h.waits, h.idleClean, h.unarmedQuiet, h.noFault⟩

/-- What one half does not speak of may change under it. -/
theorem EngineOk.of_same {s t : State} (h : EngineOk s) (hp : t.p = s.p) (he : t.e = s.e) (ht : t.t = s.t)
    (hh : t.h.armed = s.h.armed) (hf : t.fault = s.fault) : EngineOk t where
  resting := he ▸ h.resting
  transport := ht ▸ h.transport
  waits := by have := h.waits; rwa [EngineWaits, ← he, ← ht] at this
  idleClean := by rw [hp, he, ht]; exact h.idleClean
  unarmedQuiet := by rw [hh, he, ht]; exact h.unarmedQuiet
  noFault := hf.trans h.noFault

theorem HostOk.of_same {s t : State} (h : HostOk s) (hp : t.p = s.p) (hh : t.h = s.h) (hm : t.mem = s.mem)
    (hs : t.script = s.script) : HostOk t where
  params := hp ▸ h.params
  wRegion := by rw [hp, hh]; exact h.wRegion
  rRegion := by rw [hp, hh]; exact h.rRegion
  memCanonical := hm ▸ h.memCanonical
  memInRange := by rw [hp, hm]; exact h.memInRange
  dutiful := hs ▸ h.dutiful

/-- A change of the output record, the shadow or the refusal mark is none of the invariant's. -/
theorem Inv.of_same {s t : State} (h : Inv s) (hp : t.p = s.p) (he : t.e = s.e) (ht : t.t = s.t) (hh : t.h = s.h)
    (hm : t.mem = s.mem) (hf : t.fault = s.fault) (hs : t.script = s.script) : Inv t :=
  inv_of_halves (h.hostOk.of_same hp hh hm hs) (h.engineOk.of_same hp he ht (congrArg HostPort.armed hh) hf)

/-- Other inputs to come, all of them dutiful. -/
theorem Inv.withScript {s : State} (h : Inv s) {is : List Item} (o : Out) (his : ∀ it ∈ is, itemDutiful it = true) :
    Inv { s with script := is, out := o } :=
  inv_of_halves ⟨h.params, h.wRegion, h.rRegion, h.memCanonical, h.memInRange, his⟩
    (h.engineOk.of_same rfl rfl rfl rfl rfl)

/-- A byte written inside the address space. -/
theorem Inv.writeMem {s : State} (h : Inv s) {a : Nat} (v : Byte) (sh : List Byte) (ha : a < 2 ^ s.p.addrWidth) :
    Inv { s with mem := s.mem.write a v, shadow := sh } :=
  inv_of_halves ⟨h.params, h.wRegion, h.rRegion, Memory.write_wf _ _ _ h.memCanonical,
    Memory.write_below v h.memInRange ha, h.dutiful⟩ (h.engineOk.of_same rfl rfl rfl rfl rfl)

/-! ### The engine (R96, R98) -/

theorem HostOk.of_engineKeeps {s t : State} (h : HostOk s) (k : EngineKeeps s t) : HostOk t where
  params := k.p ▸ h.params
  wRegion := by rw [k.p, k.h]; exact h.wRegion
  rRegion := by rw [k.p, k.h]; exact h.rRegion
  memCanonical := engineKeeps_wf k h.memCanonical
  memInRange := by
    rw [k.p]
    rcases k.mem with hm | ⟨-, d, hm⟩ <;> rw [hm]
    · exact h.memInRange
    · exact Memory.write_below d h.memInRange (regionAddr_lt ..)
  dutiful := k.script ▸ h.dutiful

theorem engineWaits_of_pending {s : State} {x : Dir × XferLen} (hp : pendingXfer s.t = some x) :
    EngineWaits s ↔ waitsFor s.e.state x = true := by
  rw [EngineWaits, hp]

theorem engineWaits_of_nothing_pending {s : State} (hp : pendingXfer s.t = none) :
    EngineWaits s ↔ s.e.state = .idle ∨ s.t.startF = true ∨ s.t.stopF = true := by
  rw [EngineWaits, hp]

/-- A state that waits for a transfer has a row in the dispatch table for its DONE (R98, R99). -/
theorem doneRow_of_waitsFor {x : EState} {dir : Dir} {n : XferLen} (h : waitsFor x (dir, n) = true) :
    ∃ act, DoneRow x (doneEvent dir n) act := by
  cases dir with
  | inp =>
    cases n with
    | one =>
      cases x with
      | ackSent => exact ⟨_, .masterAckIn⟩
      | _ => cases h
    | eight =>
      cases x with
      | addressReceived => exact ⟨_, .addressIn⟩
      | receiveIndexByte => exact ⟨_, .indexIn⟩
      | receiveByte => exact ⟨_, .dataIn⟩
      | _ => cases h
  | out =>
    cases n with
    | one =>
      cases x with
      | receiveIndexByte => exact ⟨_, .ackOutBeforeIndex⟩
      | receiveByte => exact ⟨_, .ackOutBeforeData⟩
      | transmitByte => exact ⟨_, .ackOutBeforeRead⟩
      | nackDone => exact ⟨_, .nackOut⟩
      | _ => cases h
    | eight =>
      cases x with
      | ackSent => exact ⟨_, .byteOut⟩
      | _ => cases h

/-- A state that waits for a transfer is a resting one (R23). -/
theorem isResting_of_waitsFor {e : EState} {x : Dir × XferLen} (h : waitsFor e x = true) : e.isResting = true := by
  obtain ⟨dir, n⟩ := x
  obtain ⟨act, hrow⟩ := doneRow_of_waitsFor h
  generalize doneEvent dir n = k at hrow
  cases hrow <;> rfl

/-- The transfer that a command arms (R72). -/
def xferOf : TCmd → Option (Dir × XferLen)
  | .disarm => none
  | .in1 => some (.inp, .one)
  | .in8 => some (.inp, .eight)
  | .out1 _ => some (.out, .one)
  | .out8 _ => some (.out, .eight)

theorem pendingXfer_carryOut (c : TCmd) {t : Transport} (hd : t.doneF = false) :
    pendingXfer (carryOut c t) = xferOf c := by
  cases c <;> simp [pendingXfer, carryOut, hd, xferOf]

/-- The engine may rest once it has issued `c`: in a state that waits for the transfer of `c`, or, having disarmed, in
Idle with the endpoint reset (R98, R148). -/
def RestsAfter (c : TCmd) (s : State) : Prop :=
  (∃ x, xferOf c = some x ∧ waitsFor s.e.state x = true) ∨
  (c = .disarm ∧ s.e.state = .idle ∧ s.e.busy = false ∧ s.e.checksum = s.p.checksumSeed)

/-- The engine's half holds where a step has serviced its flag, issued its last command and come to rest. -/
theorem engineOk_of_restsAfter {s : State} (hl : Live s) {c : TCmd} {t : Transport} (hq : Quiet t)
    (ht : s.t = carryOut c t) (hr : RestsAfter c s) : EngineOk s := by
  obtain ⟨harmed, hnf⟩ := hl
  obtain ⟨hs, hd⟩ := hq
  have hok : TransportOk s.t := ht ▸ carryOut_ok c t hs hd
  have hp : pendingXfer s.t = xferOf c := ht ▸ pendingXfer_carryOut c hd
  have hu : s.h.armed = false → s.e.state = .idle ∧ flagged s.t = false := fun h => by rw [harmed] at h; cases h
  rcases hr with ⟨x, hx, hw⟩ | ⟨rfl, hi, hb, hc⟩
  · exact ⟨isResting_of_waitsFor hw, hok, (engineWaits_of_pending (hp.trans hx)).mpr hw,
      fun hi => (by rw [hi] at hw; cases hw), hu, hnf⟩
  · exact ⟨by rw [hi]; rfl, hok, (engineWaits_of_nothing_pending hp).mpr (.inl hi),
      fun _ => ⟨hb, hc, by rw [ht]; rfl, by rw [ht]; exact hd⟩, hu, hnf⟩

/-- What a row of the dispatch table leaves: the DONE serviced, its last command carried out, the engine at rest. -/
structure RowEnds (s u : State) (c : TCmd) : Prop where
  t : u.t = carryOut c { s.t with doneF := false }
  h : u.h = s.h
  fault : u.fault = s.fault
  rests : RestsAfter c u

theorem drivesBit_eq_carryOut (b : Bool) (t : Transport) : drivesBit t b = carryOut (.out1 b) { t with doneF := false } := by
  simp only [drivesBit, carryOut, armOut1, bitByte_eq]

/-- An acknowledge bit is driven in a state that waits for its clock. -/
theorem answered_rowEnds {b : Bool} {e : Endpoint} (s : State) (hw : waitsFor e.state (.out, .one) = true) :
    RowEnds s (answered b e s) (.out1 b) :=
  ⟨drivesBit_eq_carryOut b s.t, rfl, rfl, .inl ⟨_, rfl, hw⟩⟩

theorem afterAddress_waits (s : State) (d : Byte) : waitsFor (afterAddress s d).state (.out, .one) = true := by
  simp only [afterAddress]
  split_ifs <;> rfl

theorem receiveByte_rowEnds (d : Byte) (s : State) : ∃ c, RowEnds s (clearDone (receiveByte d s)) c := by
  by_cases hi : s.e.index.toNat < s.h.wlen.toNat
  · rw [clearDone_receiveByte_inside d hi]
    exact ⟨.out1 false, rfl, rfl, rfl, .inl ⟨_, rfl, rfl⟩⟩
  · rw [clearDone_receiveByte_past d (Nat.le_of_not_lt hi)]
    exact ⟨_, answered_rowEnds s rfl⟩

theorem transmitByte_rowEnds (s : State) : ∃ c, RowEnds s (clearDone (transmitByte s)) c := by
  by_cases hi : s.e.index.toNat < s.h.rlen.toNat
  · rw [clearDone_transmitByte_inside hi]
    exact ⟨.out8 _, rfl, rfl, rfl, .inl ⟨_, rfl, rfl⟩⟩
  · rw [clearDone_transmitByte_past (Nat.le_of_not_lt hi)]
    exact ⟨.out8 _, rfl, rfl, rfl, .inl ⟨_, rfl, rfl⟩⟩

/-- Every row brings the engine to rest (R98). -/
theorem doneRow_rowEnds {x : EState} {k : EvKind} {act : Byte → State → State} (hrow : DoneRow x k act) {s : State}
    (hx : s.e.state = x) (d : Byte) : ∃ c, RowEnds s (clearDone (act d s)) c := by
  cases hrow with
  | addressIn => exact ⟨_, clearDone_addressReceived d s ▸ answered_rowEnds s (afterAddress_waits s d)⟩
  | indexIn => exact ⟨_, clearDone_receiveIndexByte d s ▸ answered_rowEnds s rfl⟩
  | dataIn => exact receiveByte_rowEnds d s
  | ackOutBeforeIndex | ackOutBeforeData => exact ⟨.in8, rfl, rfl, rfl, .inl ⟨_, rfl, congrArg (waitsFor · _) hx⟩⟩
  | ackOutBeforeRead => exact transmitByte_rowEnds s
  | nackOut => exact ⟨.disarm, rfl, rfl, rfl, .inr ⟨rfl, rfl, rfl, rfl⟩⟩
  | byteOut => exact ⟨.in1, rfl, rfl, rfl, .inl ⟨_, rfl, congrArg (waitsFor · _) hx⟩⟩
  | masterAckIn =>
    cases hb : d.getLsbD 0 with
    | false =>
      obtain ⟨c, ht, hh, hf, hr⟩ := transmitByte_rowEnds (withoutIndex s)
      exact ⟨c, by simp only [hb]; exact ⟨ht, hh, hf, hr⟩⟩
    | true => exact ⟨.disarm, by simp only [hb]; exact ⟨rfl, rfl, rfl, .inr ⟨rfl, rfl, rfl, rfl⟩⟩⟩

/-- The START handler ends waiting for the address byte (R101). -/
theorem EngineOk.after_start {s : State} (h : EngineOk s) (hl : Live s) (hs : s.t.startF = true) :
    EngineOk (engineStep .start 0 s) := by
  have hd : s.t.doneF = false := by
    have hone := h.transport.oneFlag
    rw [hs] at hone
    simpa using hone
  have hstep := Host.Outcome.next.inj (startEventOpensTheAddressPhase s hl h.resting)
  rw [hstep]
  exact engineOk_of_restsAfter (c := .in8) (t := { s.t with stopF := false, startF := false }) hl ⟨rfl, hd⟩ rfl
    (.inl ⟨_, rfl, rfl⟩)

/-- The event of the transfer the engine waits for runs its row (R98, R99). -/
theorem EngineOk.after_done {s : State} (h : EngineOk s) (hl : Live s) (hs : s.t.startF = false)
    (hd : s.t.doneF = true) (d : Byte) : EngineOk (engineStep (doneEvent s.t.doneKind s.t.doneN) d s) := by
  have hp : pendingXfer s.t = some (s.t.doneKind, s.t.doneN) := by simp [pendingXfer, hd]
  obtain ⟨act, hrow⟩ := doneRow_of_waitsFor ((engineWaits_of_pending hp).mp h.waits)
  rw [engineStep_of_doneRow hrow hl rfl d]
  obtain ⟨c, ht, hh, hf, hr⟩ := doneRow_rowEnds hrow rfl d
  obtain ⟨harmed, hnf⟩ := hl
  have hlive : Live (clearDone (act d s)) := ⟨by rw [hh]; exact harmed, hf.trans hnf⟩
  exact engineOk_of_restsAfter (t := { s.t with doneF := false }) hlive ⟨hs, rfl⟩ ht hr

/-- An engine that is enabled is live, with a START or else a DONE to service (R94). -/
theorem live_of_engineEnabled {s : State} (h : engineEnabled s = true) :
    Live s ∧ (s.t.startF = true ∨ s.t.startF = false ∧ s.t.doneF = true) := by
  simp only [engineEnabled, engineLive, flagged, Bool.and_eq_true, Bool.or_eq_true, Option.isNone_iff_eq_none] at h
  obtain ⟨⟨harmed, hnf⟩, hflag⟩ := h
  refine ⟨⟨harmed, hnf⟩, ?_⟩
  cases hs : s.t.startF with
  | true => exact .inl rfl
  | false => exact .inr ⟨rfl, hflag.resolve_left (by simp [hs])⟩

/-- Serving the engine keeps the invariant. -/
theorem Inv.after_serveEngine {s : State} (h : Inv s) : Inv (serveEngine s) := by
  refine inv_of_halves (h.hostOk.of_engineKeeps (serveEngine_keeps s)) ?_
  cases he : engineEnabled s with
  | false => rw [serveEngine_of_not_enabled s he]; exact h.engineOk
  | true =>
    rw [Machine.serveEngine, if_pos he]
    obtain ⟨hl, hs | ⟨hs, hd⟩⟩ := live_of_engineEnabled he
    · rw [pendingKind, pendingData, if_pos hs, if_pos hs]
      exact h.engineOk.after_start hl hs
    · rw [pendingKind, pendingData, hs]
      exact h.engineOk.after_done hl hs hd s.t.doneData

/-! ### The bus (R81 to R88) -/

theorem HostOk.of_busKeeps {s t : State} (h : HostOk s) (k : BusKeeps s t) : HostOk t :=
  h.of_same k.p k.h k.mem k.script

/-- On an armed block the transport may go on to any state in order that the engine waits for. -/
theorem EngineOk.withTransport {s : State} (h : EngineOk s) (ha : s.h.armed = true) {t : Transport}
    (ht : TransportOk t) (hw : EngineWaits { s with t := t })
    (hi : s.e.state = .idle → t.kind = none ∧ t.doneF = false) : EngineOk { s with t := t } where
  resting := h.resting
  transport := ht
  waits := hw
  idleClean := fun hx =>
    have ⟨hb, hc, _⟩ := h.idleClean hx
    ⟨hb, hc, hi hx⟩
  unarmedQuiet := fun hu => by rw [ha] at hu; cases hu
  noFault := h.noFault

theorem Inv.after_clock {m : Bool} {s t : State} (h : Inv s) (hc : busClock m s = .next t) : Inv t := by
  refine inv_of_halves (h.hostOk.of_busKeeps (busClock_keeps hc)) ?_
  rcases busClock_cases m s with ⟨-, e⟩ | ⟨-, -, e⟩ | ⟨-, -, -, e⟩ | ⟨dir, ha, hf, hk, e⟩ <;> rw [e] at hc <;> cases hc
  · exact h.engineOk.of_same rfl rfl rfl rfl rfl
  · exact h.engineOk.of_same rfl rfl rfl rfl rfl
  · obtain ⟨hok, hp⟩ := shift_ok dir m s.t h.transport hk hf
    have hp0 : pendingXfer s.t = some (dir, s.t.n) := by
      simp only [flagged, Bool.or_eq_false_iff] at hf
      simp [pendingXfer, hf.2, hk]
    have hidle : s.e.state ≠ .idle := fun hi => by
      obtain ⟨-, -, hnone, -⟩ := h.idleClean hi
      rw [hk] at hnone; cases hnone
    have hshift := h.engineOk.withTransport ha hok
      ((engineWaits_of_pending hp).mpr ((engineWaits_of_pending hp0).mp h.waits)) fun hi => absurd hi hidle
    exact hshift.of_same rfl rfl rfl rfl rfl

theorem quiet_of_not_flagged {t : Transport} (h : flagged t = false) : Quiet t := by
  simpa [flagged, Quiet] using h

/-- A start or stop condition disarms, releases the line and raises a flag or latches the stop (R83, R84). -/
theorem Inv.after_edge {f : Transport → Transport} {s t : State} (h : Inv s)
    (hf : ∀ u, Quiet u → TransportOk (f u) ∧ (f u).kind = none ∧ (f u).doneF = false ∧
      ((f u).startF = true ∨ (f u).stopF = true))
    (hc : busEdge f s = .next t) : Inv t := by
  refine inv_of_halves (h.hostOk.of_busKeeps (busEdge_keeps hc)) ?_
  rcases busEdge_cases f s with ⟨-, e⟩ | ⟨-, -, e⟩ | ⟨-, -, -, e⟩ | ⟨ha, hq, -, e⟩ <;> rw [e] at hc <;> cases hc
  · exact h.engineOk
  · obtain ⟨hok, hk, hd, hflag⟩ := hf s.t (quiet_of_not_flagged hq)
    have hp : pendingXfer (f s.t) = none := by simp [pendingXfer, hk, hd]
    exact h.engineOk.withTransport ha hok ((engineWaits_of_nothing_pending hp).mpr (.inr hflag)) fun _ => ⟨hk, hd⟩

theorem startCondition_ok (t : Transport) (hq : Quiet t) :
    TransportOk (startCondition t) ∧ (startCondition t).kind = none ∧ (startCondition t).doneF = false ∧
      ((startCondition t).startF = true ∨ (startCondition t).stopF = true) := by
  obtain ⟨hs, hd⟩ := hq
  refine ⟨?_, rfl, hd, .inl rfl⟩
  constructor <;> simp [startCondition, hd]

theorem stopCondition_ok (t : Transport) (hq : Quiet t) :
    TransportOk (stopCondition t) ∧ (stopCondition t).kind = none ∧ (stopCondition t).doneF = false ∧
      ((stopCondition t).startF = true ∨ (stopCondition t).stopF = true) := by
  obtain ⟨hs, hd⟩ := hq
  refine ⟨?_, rfl, hd, .inr rfl⟩
  constructor <;> simp [stopCondition, hd]

theorem Inv.after_frame {ms : List Bool} {s t : State} (h : Inv s) (hf : frame ms s = .next t) : Inv t :=
  frame_induction (P := Inv) (fun _ _ _ h => h.after_clock) (fun _ h => h.after_serveEngine) ms s t h hf

/-! ### The host (R118 to R124, R128) -/

theorem Inv.after_refuse {s : State} (h : Inv s) (r : RefuseReason) : Inv (refuse r s) :=
  h.of_same rfl rfl rfl rfl rfl rfl rfl

/-- A registration that is not refused names a region in the address space (R120). -/
theorem Inv.after_registration {s : State} (h : Inv s) (writable null : Bool) (len : Byte) (base : Addr) :
    Inv (registration (if writable then setW else setR) null len base s) := by
  rcases registration_cases (if writable then setW else setR) null len base s with ⟨r, -, e⟩ | ⟨hfits, -, e⟩ <;> rw [e]
  · exact h.after_refuse r
  · cases writable with
    | true =>
      exact inv_of_halves ⟨h.params, hfits, h.rRegion, h.memCanonical, h.memInRange, h.dutiful⟩
        (h.engineOk.of_same rfl rfl rfl rfl rfl)
    | false =>
      exact inv_of_halves ⟨h.params, h.wRegion, hfits, h.memCanonical, h.memInRange, h.dutiful⟩
        (h.engineOk.of_same rfl rfl rfl rfl rfl)

theorem Inv.after_hostRegister {s : State} (h : Inv s) (writable : Bool) (buffer : Option Addr) (length : Nat) :
    Inv (hostRegister writable buffer length s) := by
  rcases hostRegister_cases writable buffer length s with ⟨base, -, -, e⟩ | ⟨null, len, base, e⟩ <;> rw [e]
  · exact h.after_refuse .length
  · exact h.after_registration ..

/-- ARM enables the engine, which an idle engine with nothing pending is ready for (R122). -/
theorem Inv.after_arm {s : State} (h : Inv s) : Inv { s with h := { s.h with armed := true } } :=
  inv_of_halves ⟨h.params, h.wRegion, h.rRegion, h.memCanonical, h.memInRange, h.dutiful⟩
    ⟨h.resting, h.transport, h.waits, h.idleClean, fun hu => (nomatch hu), h.noFault⟩

/-- The query may clear `E.busy` and never sets it (R123). -/
theorem Inv.after_queryBusy {s : State} (h : Inv s) : Inv (queryBusy s) :=
  inv_of_halves (h.hostOk.of_same rfl rfl rfl rfl)
    ⟨h.resting, h.transport, h.waits, fun hi =>
      have ⟨hb, hrest⟩ := h.idleClean hi
      ⟨busyAnswer_of_not_busy hb, hrest⟩, h.unarmedQuiet, h.noFault⟩

theorem Inv.after_commitTick {s : State} (h : Inv s) : Inv (commitTick s) := by
  rcases commitTick_cases s with ⟨-, e⟩ | ⟨-, e⟩ <;> rw [e]
  · exact h.after_queryBusy
  · exact h.after_queryBusy.writeMem _ _ (regionAddr_lt ..)

theorem Inv.after_hostStore {a : Addr} {v : Byte} {s t : State} (h : Inv s) (hs : hostStore a v s = .next t) : Inv t := by
  rcases hostStore_cases a v s with ⟨-, e⟩ | ⟨-, -, e⟩ | ⟨ha, -, e⟩ <;> rw [e] at hs <;> cases hs
  exact h.writeMem v s.shadow ha

theorem Inv.after_hostLoad {a : Addr} {s t : State} (h : Inv s) (hs : hostLoad a s = .next t) : Inv t := by
  rcases hostLoad_cases a s with ⟨-, e⟩ | ⟨-, e⟩ <;> rw [e] at hs <;> cases hs
  exact h.of_same rfl rfl rfl rfl rfl rfl rfl

/-! ### Inputs (R17, R85, R147) -/

/-- Samples give bus symbols only (R85). -/
theorem format_of_mem_symbolsOfSamples (samples : List (Bool × Bool)) :
    ∀ before bit, ∀ i ∈ symbolsOfSamples before bit samples, i.format = .busSym := by
  induction samples with
  | nil => intro before bit i hi; cases hi
  | cons now rest ih =>
    intro before bit i hi
    have hcons {x : Instr} {b : Option Bool} (hx : x.format = .busSym)
        (h : i ∈ x :: symbolsOfSamples now b rest) : i.format = .busSym := by
      rcases List.mem_cons.mp h with rfl | h
      · exact hx
      · exact ih _ _ _ h
    unfold symbolsOfSamples at hi
    split at hi
    · exact hcons rfl hi
    · exact hcons rfl hi
    · exact ih _ _ _ hi
    · split at hi
      · next v => exact hcons (by cases v <;> rfl) hi
      · exact ih _ _ _ hi
    all_goals exact ih _ _ _ hi

theorem transportOk_powerOn : TransportOk Transport.powerOn := by constructor <;> decide

theorem inv_powerOn {p : Params} (addr : BitVec 7) (cells : List (Addr × Byte)) (shadow : List Byte)
    {script : List Item} (hp : p.wf = true) (hs : ∀ it ∈ script, itemDutiful it = true) :
    Inv (State.powerOn p addr (Memory.ofCells p.addrWidth cells) shadow script) where
  params := hp
  wRegion := nullRegion_fits p
  rRegion := nullRegion_fits p
  resting := rfl
  transport := transportOk_powerOn
  waits := .inl rfl
  idleClean := fun _ => ⟨rfl, rfl, rfl, rfl⟩
  unarmedQuiet := fun _ => ⟨rfl, rfl⟩
  memCanonical := Memory.ofCells_wf ..
  memInRange := Memory.ofCells_below p.addrWidth cells
  noFault := rfl
  dutiful := hs

/-- An instruction that no event or transport command spells keeps the invariant. -/
theorem Inv.after_exec {s t : State} (h : Inv s) : ∀ i : Instr, i.format ≠ .evWord → i.format ≠ .tcmdWord →
    exec i s = .next t → Inv t
  | .clk0, _, _, he => h.after_clock he
  | .clk1, _, _, he => h.after_clock he
  | .start, _, _, he => h.after_edge startCondition_ok he
  | .stop, _, _, he => h.after_edge stopCondition_ok he
  | .addr .., _, _, he | .index _, _, _, he | .dataW _, _, _, he | .dataR _, _, _, he => h.after_frame he
  | .ack, _, _, he | .nack, _, _, he => h.after_frame he
  | .evStart, hf, _, _ | .evDoneIn1 _, hf, _, _ | .evDoneIn8 _, hf, _, _ | .evDoneOut1 _, hf, _, _
  | .evDoneOut8 _, hf, _, _ => absurd rfl hf
  | .tDisarm, _, hf, _ | .tIn1, _, hf, _ | .tIn8, _, hf, _ | .tOut1 _, _, hf, _ | .tOut8 _, _, hf, _ => absurd rfl hf
  | .nop, _, _, he => Host.Outcome.next.inj he ▸ h
  | .regw null len base, _, _, he => Host.Outcome.next.inj he ▸ h.after_registration true null len base
  | .regr null len base, _, _, he => Host.Outcome.next.inj he ▸ h.after_registration false null len base
  | .arm, _, _, he => Host.Outcome.next.inj he ▸ h.after_arm
  | .qbusy, _, _, he => Host.Outcome.next.inj he ▸ h.after_queryBusy.of_same rfl rfl rfl rfl rfl rfl rfl
  | .status, _, _, he => Host.Outcome.next.inj he ▸ h.of_same rfl rfl rfl rfl rfl rfl rfl

theorem eq_of_ite_error {c : Prop} [Decidable c] {i : Instr} {e err : DecodeError}
    (h : (if c then .ok i else .error e : Except DecodeError Instr) = .error err) : err = e := by
  split at h <;> cases h
  rfl

theorem decodeHost_error {w : Word} {err : DecodeError} (h : decodeHost w = .error err) :
    err = .reservedOp ∨ err = .reservedField := by
  unfold decodeHost at h
  dsimp only at h
  split at h
  case h_7 => cases h; exact .inl rfl
  all_goals exact .inr (eq_of_ite_error h)

/-- A word that is neither an event nor a transport command is rejected as too wide or as a reserved host word. -/
theorem decode_error_of_dutiful {f : Format} {w : Word} {err : DecodeError} (he : f ≠ .evWord) (ht : f ≠ .tcmdWord)
    (h : decode f w = .error err) : err = .tooWide ∨ err = .reservedOp ∨ err = .reservedField := by
  by_cases hfits : f.fits w = true
  · unfold decode at h
    rw [if_pos hfits] at h
    cases f with
    | evWord => exact absurd rfl he
    | tcmdWord => exact absurd rfl ht
    | busSym =>
      simp only [decodeBusSym] at h
      split at h <;> cases h
    | hcmdWord => exact .inr (decodeHost_error h)
    | _ => cases h
  · rw [decode_of_not_fits (Bool.not_eq_true _ ▸ hfits)] at h
    cases h; exact .inl rfl

theorem Inv.after_runWord {f : Format} {w : Word} {s t : State} (h : Inv s) (hd : itemDutiful (.word f w) = true)
    (hr : runWord f w s = .next t) : Inv t := by
  simp only [itemDutiful, Bool.and_eq_true, bne_iff_ne] at hd
  obtain ⟨hev, htc⟩ := hd
  rcases runWord_cases f w s with ⟨i, hi, e⟩ | ⟨err, herr, e⟩ <;> rw [e] at hr
  · obtain ⟨rfl, -⟩ := encodeOfDecodeIsTheWord f w i hi
    exact h.after_exec i hev htc hr
  · rcases decode_error_of_dutiful hev htc herr with rfl | rfl | rfl <;> cases hr
    · exact h.after_refuse .reservedOp
    · exact h.after_refuse .reservedField

theorem Inv.after_runItem {it : Item} {s t : State} (h : Inv s) (hd : itemDutiful it = true)
    (hr : runItem it s = .next t) : Inv t := by
  cases it with
  | word f w => exact h.after_runWord hd hr
  | store a v => exact h.after_hostStore hr
  | load a => exact h.after_hostLoad hr
  | tick => cases hr; exact h.after_commitTick
  | register writable buffer length => cases hr; exact h.after_hostRegister writable buffer length
  | serve => cases hr; exact h.after_serveEngine
  | samples before rest =>
    cases hr
    refine h.withScript s.out fun it hit => ?_
    rcases List.mem_append.mp hit with hit | hit
    · obtain ⟨i, hi, rfl⟩ := List.mem_map.mp hit
      simp [itemOf, itemDutiful, format_of_mem_symbolsOfSamples rest before none i hi]
    · exact h.dutiful it hit
  | powerOn cells shadow => cases hr; exact inv_powerOn s.e.addr cells shadow h.params h.dutiful

/-! ### Steps and runs -/

/-- Settles O49: a step is the engine's, which keeps the invariant by its rows, or a dutiful input. -/
theorem everyStepKeepsTheInvariant : Obligations.EveryStepKeepsTheInvariant := by
  intro s t h hstep
  have hbegin : Inv (beginStep s) := h.of_same rfl rfl rfl rfl rfl rfl rfl
  rcases step_cases s with ⟨-, e⟩ | ⟨_, _, -, -, -, e⟩ | ⟨it, rest, hs, -, e⟩ <;> rw [e] at hstep
  · cases hstep; exact hbegin.after_serveEngine
  · cases hstep; exact hbegin.after_serveEngine
  · have hall : ∀ x ∈ it :: rest, itemDutiful x = true := hs ▸ h.dutiful
    have htake : Inv (takeItem rest s) := h.withScript Out.empty fun x hx => hall x (List.mem_cons_of_mem it hx)
    exact htake.after_runItem (hall it List.mem_cons_self) hstep

/-- What every step keeps, every run keeps. -/
theorem run_induction {M : Host.Core} {P : M.State → Prop} (hstep : ∀ s t, P s → M.step s = .next t → P t) (k : Nat) :
    ∀ s t, P s → M.run k s = .next t → P t := by
  induction k with
  | zero => intro s t hp h; cases h; exact hp
  | succ k ih =>
    intro s t hp h
    rw [run_succ] at h
    split at h
    · next u hu => exact ih u t (hstep s u hp hu) h
    · cases h
    · cases h

/-- Settles O50: power-on has the invariant, and every step of the run keeps it. -/
theorem noFaultIsReachableUnderTheDuties : Obligations.NoFaultIsReachableUnderTheDuties := by
  intro p addr cells shadow script k t hp hs hrun
  have hinv : Inv t := run_induction (M := core) everyStepKeepsTheInvariant k _ t
    (inv_powerOn addr cells shadow hp hs) hrun
  exact ⟨hinv.noFault, hinv.resting⟩

/-- The block holds the line low only with the 0 bit of an armed OUT transfer (R89 to R93, R156). -/
theorem armedOut_of_line_held {t : Transport} (h : TransportOk t) (hd : t.drive = false) :
    t.kind = some .out ∧ t.out.getLsbD (t.cnt.toNat - 1) = false := by
  cases hk : t.kind with
  | none => have := (h.unarmed hk).2; rw [hd] at this; cases this
  | some dir =>
    cases dir with
    | inp => have := h.inReleases hk; rw [hd] at this; cases this
    | out => exact ⟨rfl, (h.outDrives hk).symm.trans hd⟩

/-- Settles O51: each of the spec's invariants from the conjunct that says it. -/
theorem invariantGivesTheSpecsInvariants : Obligations.InvariantGivesTheSpecsInvariants := by
  intro s h
  refine ⟨fun hi => ?_, fun hb hi => ?_, h.resting, h.transport.oneFlag, fun hd => h.transport.flagDisarms ?_,
    armedOut_of_line_held h.transport⟩
  · obtain ⟨hbusy, hchecksum, hkind, -⟩ := h.idleClean hi
    exact ⟨hbusy, hchecksum, hkind⟩
  · obtain ⟨hbusy, -⟩ := h.idleClean hi
    rw [hb] at hbusy; cases hbusy
  · simp [flagged, hd]

/-- Settles O11: reset is the power-on of a build whose parameters are well formed, with no cell and no input. -/
theorem resetIsThePowerOnOfTheBuild : Obligations.ResetIsThePowerOnOfTheBuild :=
  ⟨rfl, rfl, inv_powerOn Config.slaveAddr [] [] (p := Config.build) rfl fun _ h => nomatch h⟩

end Sys2Proof.Safety
end

section
/-! R30, R99, R131: an event word by its kind and data, the events a state does not expect, and the step of an engine
that has stopped. -/

namespace Sys2Proof.Machine

open Sys2Proof.Claims

/-! ### Event words by kind and data (R71) -/

/-- The instruction an event of kind `k` with data `d` stands for: a 1-bit operand is bit 0, START has none (R71). -/
def eventOf : EvKind → Byte → Instr
  | .start, _ => .evStart
  | .in1, d => .evDoneIn1 (d.getLsbD 0)
  | .in8, d => .evDoneIn8 d
  | .out1, d => .evDoneOut1 (d.getLsbD 0)
  | .out8, d => .evDoneOut8 d

/-- Every event word is the engine's step on a kind and data, which are the word. -/
theorem event_cases {i : Instr} (h : isEvent i) :
    ∃ k d, i = eventOf k d ∧ (∀ s, exec i s = .next (engineStep k d s)) ∧
      (encode i).extractLsb' 0 12 = eventWord k d := by
  cases i with
  | evStart => exact ⟨.start, 0, rfl, fun _ => rfl, wordOf12_all ..⟩
  | evDoneIn1 b => exact ⟨.in1, bitByte b, by rw [eventOf, bitByte_low], fun _ => rfl, wordOf12_all ..⟩
  | evDoneIn8 d => exact ⟨.in8, d, rfl, fun _ => rfl, wordOf12_all ..⟩
  | evDoneOut1 b => exact ⟨.out1, bitByte b, by rw [eventOf, bitByte_low], fun _ => rfl, wordOf12_all ..⟩
  | evDoneOut8 d => exact ⟨.out8, d, rfl, fun _ => rfl, wordOf12_all ..⟩
  | _ => cases h

theorem live_iff (s : State) : engineLive s = true ↔ Live s := by
  simp [engineLive, Live]

theorem engineLive_eq_false_of_not_live {s : State} (h : ¬ Live s) : engineLive s = false := by
  rwa [← live_iff, Bool.not_eq_true] at h

/-- Settles O34: the engine's step asks first whether the engine is live. -/
theorem stoppedEngineTakesNoStep : Obligations.StoppedEngineTakesNoStep := by
  intro s i hi hstop
  obtain ⟨k, d, -, hexec, -⟩ := event_cases hi
  have hdead : ¬ Live s := fun ⟨ha, hf⟩ => hstop.elim (fun h => by rw [ha] at h; cases h) (fun h => h hf)
  rw [hexec, engineStep_of_not_live k d s (engineLive_eq_false_of_not_live hdead)]

/-! ### Faults (R99, R131) -/

/-- A step that records the fault `r` on the word `w` and changes nothing else but the activity presented (R131). -/
def faulted (r : FaultReason) (w : BitVec 12) (s : State) : State :=
  { s with
    fault := some { reason := r, state := s.e.state.code, ev := w }
    out := engineOut s.out [] 0b00#2 }

theorem present_raise_eq_faulted (r : FaultReason) (w : BitVec 12) {s : State} (h : s.fault = none) :
    present .none (raise r w s) = faulted r w s := by
  have hcmds : s.out.cmds ++ [] = s.out.cmds := List.append_nil _
  simp only [faulted, engineOut, hcmds, present, raise, h]
  rfl

/-- A transient or reserved state expects no event (R99). -/
theorem engineStep_of_not_resting {s : State} (hl : Live s) (hr : s.e.state.isResting = false) (k : EvKind) (d : Byte) :
    engineStep k d s = faulted .badState (eventWord k d) s := by
  rw [engineStep_of_live k d s (engineLive_of_live hl), ← present_raise_eq_faulted _ _ hl.2]
  exact if_pos (by rw [hr]; rfl)

/-- In a resting state a row of the dispatch table is missing for exactly the events that are not expected (R99). -/
theorem dispatch_of_not_expected {s : State} {k : EvKind} {d : Byte} (hr : s.e.state.isResting = true)
    (he : expects s.e.state (eventOf k d) = false) : dispatch k d s = unexpected k d s := by
  unfold dispatch
  rw [hr]
  cases k with
  | start => cases he
  | in1 =>
    cases hx : s.e.state with
    | ackSent => rw [hx] at he; cases he
    | _ => rfl
  | in8 =>
    cases hx : s.e.state with
    | addressReceived | receiveIndexByte | receiveByte => rw [hx] at he; cases he
    | _ => rfl
  | out1 =>
    cases hx : s.e.state with
    | receiveIndexByte | receiveByte | transmitByte | nackDone => rw [hx] at he; cases he
    | _ => rfl
  | out8 =>
    cases hx : s.e.state with
    | ackSent => rw [hx] at he; cases he
    | _ => rfl

theorem engineStep_of_not_expected {s : State} (hl : Live s) (hr : s.e.state.isResting = true) {k : EvKind} {d : Byte}
    (he : expects s.e.state (eventOf k d) = false) :
    engineStep k d s = faulted .unexpectedEvent (eventWord k d) s := by
  rw [engineStep_of_live k d s (engineLive_of_live hl), dispatch_of_not_expected hr he,
    ← present_raise_eq_faulted _ _ hl.2]
  rfl

/-- Settles O32: an event of no row, and any event where there are no rows. -/
theorem unexpectedEventsAndBadStatesFault : Obligations.UnexpectedEventsAndBadStatesFault := by
  intro s i hl hi record
  obtain ⟨k, d, rfl, hexec, hword⟩ := event_cases hi
  simp only [record, hexec, hword]
  exact ⟨fun hr he => congrArg _ (engineStep_of_not_expected hl hr he),
    fun hr => congrArg _ (engineStep_of_not_resting hl hr k d)⟩

/-! ### The one store (R107) -/

/-- In any state but ReceiveByte a byte in is no data byte, and nothing is stored. -/
theorem engineStep_in8_mem_of_ne {s : State} (hx : s.e.state ≠ .receiveByte) (d : Byte) :
    (engineStep .in8 d s).mem = s.mem := by
  by_cases hl : Live s
  · cases hr : s.e.state.isResting with
    | false => rw [engineStep_of_not_resting hl hr]; rfl
    | true =>
      by_cases ha : s.e.state = .addressReceived
      · rw [engineStep_of_doneRow .addressIn hl ha, clearDone_addressReceived]; rfl
      · by_cases hi : s.e.state = .receiveIndexByte
        · rw [engineStep_of_doneRow .indexIn hl hi, clearDone_receiveIndexByte]; rfl
        · have he : expects s.e.state (.evDoneIn8 d) = false := by
            revert hx ha hi
            cases s.e.state <;> simp [expects]
          rw [engineStep_of_not_expected (k := .in8) hl hr he]; rfl
  · rw [engineStep_of_not_live _ _ _ (engineLive_eq_false_of_not_live hl)]

/-- An engine step leaves memory as it is, or it is the event of a data byte inside the region, stored at the index. -/
theorem engineStep_mem_cases (k : EvKind) (d : Byte) (s : State) :
    (engineStep k d s).mem = s.mem ∨
    (k = .in8 ∧ Live s ∧ s.e.state = .receiveByte ∧ s.e.index.toNat < s.h.wlen.toNat ∧
      (engineStep k d s).mem = s.mem.write (waddr s) d) := by
  by_cases hk : k = .in8
  case neg => exact .inl ((engineStep_does k d s).mem hk)
  subst hk
  by_cases hx : s.e.state = .receiveByte
  case neg => exact .inl (engineStep_in8_mem_of_ne hx d)
  by_cases hl : Live s
  case neg => exact .inl (by rw [engineStep_of_not_live _ _ _ (engineLive_eq_false_of_not_live hl)])
  rw [engineStep_of_doneRow .dataIn hl hx]
  by_cases hi : s.e.index.toNat < s.h.wlen.toNat
  · exact .inr ⟨rfl, hl, hx, hi, by rw [clearDone_receiveByte_inside d hi]⟩
  · exact .inl (by rw [clearDone_receiveByte_past d (Nat.le_of_not_lt hi)]; rfl)

/-- Settles O28: the two cases of an engine step's memory. -/
theorem eventWordsStoreOnlyTheDataByte : Obligations.EventWordsStoreOnlyTheDataByte := by
  intro s i hi hw
  obtain ⟨k, d, rfl, hexec, -⟩ := event_cases hi
  refine ⟨_, hexec s, ?_⟩
  rcases engineStep_mem_cases k d s with hm | ⟨rfl, hl, hx, hin, hm⟩ <;> rw [hm]
  · exact .inr fun _ => rfl
  · exact .inl ⟨d, rfl, hl, hx, hin, Memory.read_write_same _ _ _ hw, fun a ha => Memory.read_write_ne _ _ _ _ ha⟩

end Sys2Proof.Machine
end

section
/-! R85, R94, R95, R118, R132, R147: what one step does with the next input, a pending event, a word that is no
instruction, and the inputs that are no word. -/

namespace Sys2Proof.Machine

open Sys2Proof.Claims

/-! ### Words and pending events (R94, R95) -/

/-- A word runs at once unless it is bus activity and an engine step is enabled. -/
theorem step_of_word {s : State} {f : Format} {w : Word} {rest : List Item} (hs : s.script = .word f w :: rest)
    (h : f.isBus = false ∨ engineEnabled s = false) : step s = runWord f w (takeItem rest s) := by
  have hbus : ¬ (itemIsBus (.word f w) && engineEnabled s) = true := by
    rcases h with h | h <;> simp [itemIsBus, h]
  simp only [step, stepMachine, hs]
  exact if_neg hbus

theorem runWord_of_ok {f : Format} {w : Word} {i : Instr} (h : decode f w = .ok i) (s : State) :
    runWord f w s = exec i s := by
  simp only [runWord, h]

theorem runWord_of_error {f : Format} {w : Word} {err : DecodeError} (h : decode f w = .error err) (s : State) :
    runWord f w s = rejected err s := by
  simp only [runWord, h]

/-- Settles O5: running a word is running what it decodes to. -/
theorem stepRunsTheDecodedInstruction : Obligations.StepRunsTheDecodedInstruction := by
  intro s f w rest i hs hi h
  rw [step_of_word hs h, runWord_of_ok hi]
  rfl

/-- With the script empty, or bus activity next and an engine step enabled, the engine is served. -/
theorem step_of_served {s : State}
    (hs : s.script = [] ∨ (∃ f w rest, s.script = .word f w :: rest ∧ f.isBus = true) ∧ engineEnabled s = true) :
    step s = .next (serveEngine (beginStep s)) := by
  rcases hs with hs | ⟨⟨f, w, rest, hs, hf⟩, he⟩
  · simp only [step, stepMachine, hs]
  · have hbus : (itemIsBus (.word f w) && engineEnabled s) = true := by rw [itemIsBus, hf, he]; rfl
    simp only [step, stepMachine, hs]
    exact if_pos hbus

/-- A live engine with START pending runs EV_START (R94). -/
theorem serveEngine_start {s : State} (hl : Live s) (hs : s.t.startF = true) :
    .next (serveEngine s) = exec .evStart s := by
  have he : engineEnabled s = true := engineEnabled_of_flagged hl.1 hl.2 (by simp [flagged, hs])
  rw [serveEngine, if_pos he, pendingKind, pendingData, if_pos hs, if_pos hs]
  rfl

/-- A live engine with a DONE pending, and no START, steps on the event of that transfer (R94). -/
theorem serveEngine_done {s : State} (hl : Live s) (hs : s.t.startF = false) (hd : s.t.doneF = true) :
    serveEngine s = engineStep (doneEvent s.t.doneKind s.t.doneN) s.t.doneData s := by
  have he : engineEnabled s = true := engineEnabled_of_flagged hl.1 hl.2 (by simp [flagged, hd])
  rw [serveEngine, if_pos he, pendingKind, pendingData, hs]
  rfl

section Done

variable {s : State} (hl : Live s) (hs : s.t.startF = false) (hd : s.t.doneF = true)
include hl hs hd

theorem serveEngine_in8 (hk : s.t.doneKind = .inp) (hn : s.t.doneN = .eight) :
    .next (serveEngine s) = exec (.evDoneIn8 s.t.doneData) s := by
  rw [serveEngine_done hl hs hd, hk, hn]; rfl

theorem serveEngine_out8 (hk : s.t.doneKind = .out) (hn : s.t.doneN = .eight) :
    .next (serveEngine s) = exec (.evDoneOut8 s.t.doneData) s := by
  rw [serveEngine_done hl hs hd, hk, hn]; rfl

theorem serveEngine_in1 {b : Bool} (hb : s.t.doneData = if b then 1 else 0) (hk : s.t.doneKind = .inp)
    (hn : s.t.doneN = .one) : .next (serveEngine s) = exec (.evDoneIn1 b) s := by
  rw [serveEngine_done hl hs hd, hk, hn, hb, ← bitByte_eq]; rfl

theorem serveEngine_out1 {b : Bool} (hb : s.t.doneData = if b then 1 else 0) (hk : s.t.doneKind = .out)
    (hn : s.t.doneN = .one) : .next (serveEngine s) = exec (.evDoneOut1 b) s := by
  rw [serveEngine_done hl hs hd, hk, hn, hb, ← bitByte_eq]; rfl

end Done

/-- Settles O6: the step serves the engine, whose event is read off the flags. -/
theorem pendingEventRunsBeforeTheNextSymbol : Obligations.PendingEventRunsBeforeTheNextSymbol := by
  intro s hscript hl
  have hstep (hf : flagged s.t = true) : step s = .next (serveEngine (beginStep s)) :=
    step_of_served (hscript.imp_right fun h => ⟨h, engineEnabled_of_flagged hl.1 hl.2 hf⟩)
  have hlive : Live (beginStep s) := hl
  refine ⟨fun hs => (hstep (by simp [flagged, hs])).trans (serveEngine_start hlive hs), fun hs hd => ?_⟩
  rw [hstep (by simp [flagged, hd])]
  exact ⟨serveEngine_in8 hlive hs hd, serveEngine_out8 hlive hs hd,
    fun b hb hn => ⟨fun hk => serveEngine_in1 hlive hs hd hb hk hn, fun hk => serveEngine_out1 hlive hs hd hb hk hn⟩⟩

theorem engineEnabled_eq_false {s : State} (h : ¬ Live s ∨ Quiet s.t) : engineEnabled s = false := by
  rcases h with h | h
  · rw [engineEnabled, engineLive_eq_false_of_not_live h]; rfl
  · rw [engineEnabled, flagged_eq_false_of_quiet h, Bool.and_false]

/-- Settles O7: a serve input is the engine's step, if there is one. -/
theorem serveTakesThePendingEvent : Obligations.ServeTakesThePendingEvent := by
  intro s rest hs u
  rw [step_of_item hs rfl]
  exact ⟨serveEngine_start (s := u), serveEngine_in8 (s := u), serveEngine_out8 (s := u),
    fun b hl hst hd hn hb => ⟨fun hk => serveEngine_in1 (s := u) hl hst hd hb hk hn,
      fun hk => serveEngine_out1 (s := u) hl hst hd hb hk hn⟩,
    fun h => congrArg _ (serveEngine_of_not_enabled u (engineEnabled_eq_false h))⟩

/-- Settles O8: the script's end serves the engine, which has nothing to do. -/
theorem nothingHappensWithoutInput : Obligations.NothingHappensWithoutInput := by
  intro s hs h
  exact (step_of_served (.inl hs)).trans
    (congrArg _ (serveEngine_of_not_enabled (beginStep s) (engineEnabled_eq_false h)))

/-! ### Words that are no instruction (R77, R131, R132) -/

/-- A reserved kind faults by the state first, as BAD_STATE, and only then as BAD_EVENT (R137). -/
theorem reservedEvent_of_live {s : State} (hl : Live s) (w : BitVec 12) :
    reservedEvent w s = if s.e.state.isResting then faulted .badEvent w s else faulted .badState w s := by
  rw [reservedEvent, if_pos (engineLive_of_live hl), present_raise_eq_faulted _ _ hl.2]
  cases s.e.state.isResting <;> rfl

/-- A first fault is recorded, and a later one leaves the record (R131). -/
theorem raise_eq (r : FaultReason) (w : BitVec 12) (s : State) :
    raise r w s = { s with fault := s.fault.or (some { reason := r, state := s.e.state.code, ev := w }) } := by
  unfold raise
  cases s.fault <;> rfl

/-- Settles O33: reserved words are rejected by name, and each name raises its fault. -/
theorem reservedInterfaceWordsFault : Obligations.ReservedInterfaceWordsFault := by
  intro s k d rest u record
  refine ⟨fun hk hs hl => ?_, fun hk hs => ?_⟩
  · have hlive : Live (takeItem rest s) := hl
    rw [step_of_word hs (.inl rfl), runWord_of_error (decode_evWord_reserved hk d), rejected,
      reservedEvent_of_live hlive, takeItem_e]
    cases s.e.state.isResting <;> rfl
  · rw [step_of_word hs (.inl rfl), runWord_of_error (decode_tcmdWord_reserved hk d), rejected, reservedCommand, raise_eq]
    rfl

/-- Settles O43: a reserved op is rejected by name and refused. -/
theorem reservedOpsAreRefused : Obligations.ReservedOpsAreRefused := by
  intro s op x rest hop hs
  rw [step_of_word hs (.inl rfl), runWord_of_error (decode_hcmdWord_reserved hop x)]
  rfl

/-! ### Words with data bits that their row does not list (R99, log entry 18) -/

/-- The engine uses only bit 0 of a 1-bit event's data and none of START's, so an expected event is the instruction of
its kind whatever the other bits are. -/
theorem engineStep_of_expected {s : State} (hl : Live s) (hr : s.e.state.isResting = true) {k : EvKind} {d : Byte}
    (he : expects s.e.state (eventOf k d) = true) : .next (engineStep k d s) = exec (eventOf k d) s := by
  cases k with
  | start => exact congrArg _ ((engineStep_start_of_resting hl hr d).trans (engineStep_start_of_resting hl hr 0).symm)
  | in8 | out8 => rfl
  | in1 =>
    have hx : s.e.state = .ackSent := by
      cases hx : s.e.state with
      | ackSent => rfl
      | _ => rw [hx] at he; cases he
    have hlow : (bitByte (d.getLsbD 0)).getLsbD 0 = d.getLsbD 0 := bitByte_low _
    refine congrArg _ ((engineStep_of_doneRow .masterAckIn hl hx d).trans ?_)
    rw [engineStep_of_doneRow .masterAckIn hl hx]
    simp only [hlow]
  | out1 =>
    have hrow : ∃ act : State → State, DoneRow s.e.state .out1 fun _ => act := by
      cases hx : s.e.state with
      | receiveIndexByte => exact ⟨_, .ackOutBeforeIndex⟩
      | receiveByte => exact ⟨_, .ackOutBeforeData⟩
      | transmitByte => exact ⟨_, .ackOutBeforeRead⟩
      | nackDone => exact ⟨_, .nackOut⟩
      | _ => rw [hx] at he; cases he
    obtain ⟨act, hrow⟩ := hrow
    exact congrArg _ ((engineStep_of_doneRow hrow hl rfl d).trans (engineStep_of_doneRow hrow hl rfl _).symm)

/-- A word goes by the kind or command in bits 8 to 11. -/
theorem word12_kind (n : BitVec 4) (d : Byte) : (n ++ d : BitVec 12).extractLsb' 8 4 = n := by
  rw [BitVec.extractLsb'_append_eq_of_le (by decide)]
  exact BitVec.extractLsb'_eq_self

theorem word12_data (n : BitVec 4) (d : Byte) : (n ++ d : BitVec 12).extractLsb' 0 8 = d :=
  BitVec.extractLsb'_append_eq_right

theorem word12_low (n : BitVec 4) (d : Byte) : (n ++ d : BitVec 12).getLsbD 0 = d.getLsbD 0 :=
  BitVec.getLsbD_append.trans (if_pos (by decide))

/-- A word of an unreserved kind runs the engine on its kind and data, if both readings of it do: as the instruction
its row lists, and as the loose event of any other data bits. -/
theorem runWord_of_looseEvent {n : BitVec 4} {k : EvKind} {d : Byte} {i : Instr} {c : Prop} [Decidable c] {s : State}
    (hdecode : decode .evWord (wordOf12 n d) = if c then .ok i else .error (.looseEvent (n ++ d)))
    (hlisted : c → exec i s = .next (engineStep k d s)) (hloose : looseEvent (n ++ d) s = engineStep k d s) :
    runWord .evWord (wordOf12 n d) s = .next (engineStep k d s) := by
  by_cases hc : c
  · exact (runWord_of_ok (hdecode.trans (if_pos hc)) s).trans (hlisted hc)
  · exact (runWord_of_error (hdecode.trans (if_neg hc)) s).trans (congrArg _ hloose)

theorem runWord_start (d : Byte) (s : State) : runWord .evWord (wordOf12 1 d) s = .next (engineStep .start d s) :=
  runWord_of_looseEvent (decode_evWord_start d) (fun hd => by rw [hd]; rfl)
    (by rw [looseEvent, word12_kind, word12_data]; rfl)

theorem runWord_in1 (d : Byte) (s : State) : runWord .evWord (wordOf12 2 d) s = .next (engineStep .in1 d s) :=
  runWord_of_looseEvent (decode_evWord_in1 d)
    (fun hd => congrArg (fun d => Host.Outcome.next (engineStep .in1 d s)) (bitByte_of_high hd))
    (by rw [looseEvent, word12_kind, word12_data]; rfl)

theorem runWord_out1 (d : Byte) (s : State) : runWord .evWord (wordOf12 4 d) s = .next (engineStep .out1 d s) :=
  runWord_of_looseEvent (decode_evWord_out1 d)
    (fun hd => congrArg (fun d => Host.Outcome.next (engineStep .out1 d s)) (bitByte_of_high hd))
    (by rw [looseEvent, word12_kind, word12_data]; rfl)

/-- A word of an unreserved command runs the instruction of the command, if the loose command does. -/
theorem runWord_of_looseCommand {n : BitVec 4} {d : Byte} {i : Instr} {c : Prop} [Decidable c] {s : State}
    (hdecode : decode .tcmdWord (wordOf12 n d) = if c then .ok i else .error (.looseCommand (n ++ d)))
    (hloose : .next (looseCommand (n ++ d) s) = exec i s) : runWord .tcmdWord (wordOf12 n d) s = exec i s := by
  by_cases hc : c
  · exact runWord_of_ok (hdecode.trans (if_pos hc)) s
  · exact (runWord_of_error (hdecode.trans (if_neg hc)) s).trans hloose

/-- Settles O60: words of an unreserved kind or command run by it, and what is too wide decodes to nothing. -/
theorem unlistedDataBitsAreIgnored : Obligations.UnlistedDataBitsAreIgnored := by
  intro s d rest u record goesBy does
  have hevent {n : BitVec 4} {k : EvKind} (hrun : runWord .evWord (wordOf12 n d) u = .next (engineStep k d u))
      (hword : eventWord k d = n ++ d) : goesBy n (eventOf k d) := by
    intro hs
    rw [step_of_word hs (.inl rfl)]
    refine ⟨fun hdead => ?_, fun hl hr he => ?_, fun hl hr he => ?_, fun hl hr => ?_⟩ <;> refine hrun.trans ?_
    · rw [engineStep_of_not_live k d u (engineLive_eq_false_of_not_live hdead)]
    · exact engineStep_of_expected (s := u) hl hr he
    · rw [engineStep_of_not_expected (s := u) hl hr he, hword]; rfl
    · rw [engineStep_of_not_resting (s := u) hl hr k d, hword]; rfl
  have hcommand {n : BitVec 4} {i : Instr} (hrun : runWord .tcmdWord (wordOf12 n d) u = exec i u) : does n i :=
    fun hs => (step_of_word hs (.inl rfl)).trans hrun
  refine ⟨⟨hevent (runWord_start d u) rfl, hevent (runWord_in1 d u) rfl, hevent (runWord_out1 d u) rfl⟩,
    ⟨hcommand (runWord_of_looseCommand (decode_tcmdWord_disarm d) ?_),
      hcommand (runWord_of_looseCommand (decode_tcmdWord_in1 d) ?_),
      hcommand (runWord_of_looseCommand (decode_tcmdWord_in8 d) ?_),
      hcommand (runWord_of_looseCommand (decode_tcmdWord_out1 d) ?_)⟩,
    fun f w hs hw hf => ?_⟩
  · rw [looseCommand, word12_kind]; rfl
  · rw [looseCommand, word12_kind]; rfl
  · rw [looseCommand, word12_kind]; rfl
  · rw [looseCommand, word12_kind, word12_low]; rfl
  · rw [step_of_word hs hf, runWord_of_error (decode_of_not_fits hw)]; rfl

/-! ### Inputs that are no word (R85, R118, R147) -/

/-- Settles O42: a call is the registration of its command. -/
theorem registrationCallsRunTheCommands : Obligations.RegistrationCallsRunTheCommands := by
  intro s writable rest u command
  refine ⟨fun n hs => ?_, fun base n hn hs => ?_, fun base n hn hs => ?_⟩ <;> rw [step_of_item hs rfl]
  · cases writable <;> rfl
  · have hshort : hostRegister writable (some base) n u =
        registration (if writable then setW else setR) false (BitVec.ofNat 8 n) base u := if_neg (Nat.not_lt.mpr hn)
    refine (congrArg Host.Outcome.next hshort).trans ?_
    cases writable <;> rfl
  · exact congrArg _ (hostRegister_of_long_call hn writable base u)

/-- Settles O48: a load, and a store by the test of the window and of the address space. -/
theorem hostMemoryAccesses : Obligations.HostMemoryAccesses := by
  intro s a v rest hw u
  refine ⟨fun hs => ?_, fun hs => ?_⟩ <;> rw [step_of_item hs rfl]
  · exact ⟨fun ha => if_neg (Nat.not_le.mpr ha), fun ha => if_pos ha⟩
  · have hwindow : inWb u a.toNat = true ↔ inW s a.toNat := inWb_iff u a.toNat
    refine ⟨fun ha hout => ⟨s.mem.write a.toNat v, ?_, Memory.read_write_same _ _ _ hw,
      fun b hb => Memory.read_write_ne _ _ _ _ hb⟩, fun ha hin => ?_, fun ha => if_pos ha⟩
    · exact (if_neg (Nat.not_le.mpr ha)).trans (if_neg (fun h => hout (hwindow.mp h)))
    · exact (if_neg (Nat.not_le.mpr ha)).trans (if_pos (hwindow.mpr hin))

/-- Memory built from cells in the address space reads, at each address, the first cell that names it. -/
theorem Memory.read_ofCells {width : Nat} {cells : List (Addr × Byte)} (h : ∀ c ∈ cells, c.1.toNat < 2 ^ width)
    (a : Nat) :
    Memory.read (Memory.ofCells width cells) a =
      ((cells.find? fun c => c.1.toNat == a).map Prod.snd).getD Memory.unlisted := by
  induction cells with
  | nil => rfl
  | cons c cells ih =>
    obtain ⟨k, v⟩ := c
    have hk : k.toNat % 2 ^ width = k.toNat := Nat.mod_eq_of_lt (h (k, v) List.mem_cons_self)
    rw [Memory.ofCells, hk]
    by_cases ha : k.toNat = a
    · rw [List.find?_cons_of_pos (by simpa using ha), ha,
        Memory.read_write_same _ _ _ (Memory.ofCells_wf width cells)]
      rfl
    · rw [List.find?_cons_of_neg (by simpa using ha), Memory.read_write_ne _ _ _ _ (Ne.symm ha),
        ih fun c hc => h c (List.mem_cons_of_mem _ hc)]

/-- Settles O10: the memory is the one built from the input's cells. -/
theorem powerOnInputResetsTheBlock : Obligations.PowerOnInputResetsTheBlock := by
  intro s cells sh rest hs hcells
  refine ⟨Memory.ofCells s.p.addrWidth cells, ?_, Memory.ofCells_wf _ _, fun a => ?_⟩
  · rw [step_of_item hs rfl]; rfl
  · rw [Memory.read_ofCells hcells]
    cases cells.find? fun c => c.1.toNat == a <;> rfl

/-- The samples of the wires over one bus symbol give that symbol, and leave no sampled bit pending (R85). -/
theorem symbolsOfSamples_waveOf {i : Instr} (hi : i.format = .busSym) (before : Bool × Bool) :
    ∃ after, ∀ rest, symbolsOfSamples before none (waveOf i ++ rest) = i :: symbolsOfSamples after none rest := by
  obtain ⟨scl, sda⟩ := before
  cases i with
  | clk0 => exact ⟨(false, false), fun rest => by cases scl <;> cases sda <;> rfl⟩
  | clk1 => exact ⟨(false, true), fun rest => by cases scl <;> cases sda <;> rfl⟩
  | start => exact ⟨(true, false), fun rest => by cases scl <;> cases sda <;> rfl⟩
  | stop => exact ⟨(true, true), fun rest => by cases scl <;> cases sda <;> rfl⟩
  | _ => cases hi

theorem symbolsOfSamples_flatMap_waveOf (is : List Instr) :
    ∀ before, (∀ i ∈ is, i.format = .busSym) → symbolsOfSamples before none (is.flatMap waveOf) = is := by
  induction is with
  | nil => intro _ _; rfl
  | cons i is ih =>
    intro before h
    obtain ⟨after, hwave⟩ := symbolsOfSamples_waveOf (h i List.mem_cons_self) before
    rw [List.flatMap_cons, hwave, ih after fun j hj => h j (List.mem_cons_of_mem i hj)]

/-- Settles O17: the step puts the symbols on the script, and the samples over symbols give them back. -/
theorem samplesGiveTheSymbols : Obligations.SamplesGiveTheSymbols := by
  have hstep (s : State) (before : Bool × Bool) (samples : List (Bool × Bool)) (rest : List Item)
      (hs : s.script = .samples before samples :: rest) :
      step s = .next { s with
        script := (symbolsOfSamples before none samples).map (fun i => .word i.format (encode i)) ++ rest
        out := Out.empty } := by
    rw [step_of_item hs rfl]; rfl
  refine ⟨hstep, fun is his => ?_⟩
  have hsymbols := symbolsOfSamples_flatMap_waveOf is (true, true) his
  exact ⟨hsymbols, fun s rest hs => by rw [hstep s _ _ rest hs, hsymbols]⟩

end Sys2Proof.Machine
end

section
/-! R60 to R69, R80 to R88 on the wire: the symbols and frames that leave the block as it is, the symbols the master
does not have, and the frame of each byte and acknowledge bit (frames as their clocks: log entry 13). -/

namespace Sys2Proof.Machine

open Sys2Proof.Claims

/-! ### Clocks that change nothing (R82, R87, R88) -/

/-- The state once the master has read the line values `line` on this step's clocks. -/
def sawLines (line : List Bool) (s : State) : State := { s with out := { s.out with line := s.out.line ++ line } }

theorem sawLines_nil (s : State) : sawLines [] s = s := by
  simp [sawLines]

theorem sawLines_cons (m : Bool) (ms : List Bool) (s : State) : sawLines ms (sawLine m s) = sawLines (m :: ms) s := by
  simp [sawLines, sawLine]

/-- No clock is the block's: it is not armed, or has no transfer armed and no flag pending. -/
def Deaf (s : State) : Prop := s.h.armed = false ∨ (Quiet s.t ∧ s.t.kind = none)

theorem busClock_of_deaf {s : State} (h : Deaf s) (m : Bool) : busClock m s = .next (sawLine m s) := by
  rcases busClock_cases m s with ⟨-, e⟩ | ⟨ha, hf, -⟩ | ⟨-, -, -, e⟩ | ⟨dir, ha, -, hk, -⟩
  · exact e
  · rcases h with h | ⟨hq, -⟩
    · rw [ha] at h; cases h
    · rw [flagged_eq_false_of_quiet hq] at hf; cases hf
  · exact e
  · rcases h with h | ⟨-, hn⟩
    · rw [ha] at h; cases h
    · rw [hk] at hn; cases hn

theorem serveEngine_of_deaf {s : State} (h : Deaf s) : serveEngine s = s := by
  refine serveEngine_of_not_enabled s ?_
  rcases h with h | ⟨hq, -⟩
  · exact engineEnabled_of_unarmed h
  · exact engineEnabled_eq_false (.inr hq)

theorem frame_of_deaf (ms : List Bool) : ∀ s, Deaf s → frame ms s = .next (sawLines ms s) := by
  induction ms with
  | nil => intro s _; rw [sawLines_nil]; rfl
  | cons m ms ih =>
    intro s h
    have hd : Deaf (sawLine m s) := h
    have hclock : clockServed m s = .next (sawLine m s) := by
      rw [clockServed, busClock_of_deaf h]
      exact congrArg _ (serveEngine_of_deaf hd)
    rw [frame_cons_of_next hclock, ih _ hd, sawLines_cons]

/-- A bus word is a clock, START or STOP, or a frame of its bits (R60 to R67, R70). -/
theorem busWord_cases {i : Instr} (h : i.format.isBus = true) :
    (∃ m, i = clockOf m) ∨ i = .start ∨ i = .stop ∨
      (lineBits i).length ≤ 8 ∧ ∀ s, exec i s = frame (lineBits i) s := by
  cases i with
  | clk0 => exact .inl ⟨false, rfl⟩
  | clk1 => exact .inl ⟨true, rfl⟩
  | start => exact .inr (.inl rfl)
  | stop => exact .inr (.inr (.inl rfl))
  | addr a d => exact .inr (.inr (.inr ⟨le_refl 8, fun _ => rfl⟩))
  | index v | dataW v | dataR v => exact .inr (.inr (.inr ⟨le_refl 8, fun _ => rfl⟩))
  | ack | nack => exact .inr (.inr (.inr ⟨by decide, fun _ => rfl⟩))
  | _ => cases h

theorem lineBits_clockOf (m : Bool) : lineBits (clockOf m) = [m] := by cases m <;> rfl

/-- Every clock and frame that is not the block's is read by the master as it drives it, and changes nothing else. -/
theorem exec_of_deaf {s : State} (h : Deaf s) {i : Instr} (hi : i.format.isBus = true) (h1 : i ≠ .start)
    (h2 : i ≠ .stop) : exec i s = .next (sawLines (lineBits i) s) := by
  rcases busWord_cases hi with ⟨m, rfl⟩ | rfl | rfl | ⟨-, hframe⟩
  · rw [exec_clockOf, busClock_of_deaf h, lineBits_clockOf]; rfl
  · exact absurd rfl h1
  · exact absurd rfl h2
  · rw [hframe, frame_of_deaf _ s h]

/-- Settles O15: with nothing armed no clock is the block's. -/
theorem clocksWithNothingArmedAreIgnored : Obligations.ClocksWithNothingArmedAreIgnored :=
  fun _ _ _ hq hk hi h1 h2 => exec_of_deaf (.inr ⟨hq, hk⟩) hi h1 h2

/-- Settles O12: while unarmed no clock is the block's, and a start or stop condition goes unseen. -/
theorem unarmedBlockIsInvisibleOnTheBus : Obligations.UnarmedBlockIsInvisibleOnTheBus := by
  intro s i ha hi
  refine ⟨?_, engineEnabled_of_unarmed ha⟩
  have hedge (f : Transport → Transport) : busEdge f s = .next (sawLines [] s) := by
    rw [sawLines_nil]
    exact if_pos (by rw [ha]; rfl)
  by_cases h1 : i = .start
  · rw [h1]; exact hedge startCondition
  · by_cases h2 : i = .stop
    · rw [h2]; exact hedge stopCondition
    · exact exec_of_deaf (.inl ha) hi h1 h2

/-- Settles O18: a flag pending turns every symbol away, and a line held low the two that need an edge. -/
theorem masterHasNoMoveAgainstItsDuties : Obligations.MasterHasNoMoveAgainstItsDuties := by
  intro s i ha hi
  refine ⟨fun hf => exec_busSym_of_flagged ha hf hi, fun hq hd hedge => ?_⟩
  have hheld (f : Transport → Transport) : busEdge f s = .refused .lineHeldLow := by
    simp [busEdge, ha, flagged_eq_false_of_quiet hq, hd]
  rcases hedge with rfl | rfl
  · exact hheld startCondition
  · exact hheld stopCondition

/-! ### Byte frames (R61, R62, R65 to R67) -/

/-- The state once the bits `line` have completed a transfer and left the transport as `t` (R86). -/
def transferred (line : List Bool) (t : Transport) (s : State) : State :=
  { s with t := t, out := { s.out with line := s.out.line ++ line } }

/-- The frame of a byte armed in is that byte's event. -/
theorem frame_of_byteIn (v : Byte) {s : State} (hl : Live s) (hb : ByteIn s.t) :
    frame (byteBits v) s = exec (.evDoneIn8 v) (transferred (byteBits v) (byteDone .inp v s.t) s) := by
  obtain ⟨hq, hk, hn, hc, hd⟩ := hb
  rw [frame_in8 v s hl.1 (flagged_eq_false_of_quiet hq) hk hn hc hd]
  exact serveEngine_in8 (s := transferred (byteBits v) (byteDone .inp v s.t) s) hl hq.1 rfl rfl rfl

/-- Settles O35: the event of the address byte. -/
theorem addressFrameIsAnswered : Obligations.AddressFrameIsAnswered := by
  intro s a d hl hx hb v
  exact (frame_of_byteIn v hl hb).trans (addressByteIsMatchedAndAnswered _ v hl hx)

/-- Settles O36: the event of the index byte. -/
theorem indexFrameIsLoaded : Obligations.IndexFrameIsLoaded :=
  fun _ i hl hx hb => (frame_of_byteIn i hl hb).trans (indexByteIsLoadedAndAcknowledged _ i hl hx)

/-- Settles O37: the event of the data byte, inside the region or past it. -/
theorem dataFrameIsStoredOrRefused : Obligations.DataFrameIsStoredOrRefused := by
  intro s v hl hx hb o
  obtain ⟨hinside, hpast⟩ :=
    dataByteIsStoredOrRefused (transferred (byteBits v) (byteDone .inp v s.t) s) v hl hx
  exact ⟨fun h => (frame_of_byteIn v hl hb).trans (hinside h), fun h => (frame_of_byteIn v hl hb).trans (hpast h)⟩

/-- Settles O38: the event of the byte out, whose line values are those of both sides. -/
theorem readFrameCarriesTheArmedByte : Obligations.ReadFrameCarriesTheArmedByte := by
  intro s v b hl hx hb w
  obtain ⟨hq, hk, hn, hc, ho, hd⟩ := hb
  refine ⟨?_, fun h => ?_⟩
  · obtain ⟨-, hbyteOut⟩ := halfStepsArmTheNextTransfer
    refine (frame_out8 v b s hl.1 (flagged_eq_false_of_quiet hq) hk hn hc ho hd).trans ?_
    exact (serveEngine_out8 (s := transferred (byteBits w) (byteDone .out w s.t) s) hl hq.1 rfl rfl rfl).trans
      (hbyteOut _ w hl hx)
  · rcases h with rfl | rfl
    · exact BitVec.and_self
    · exact BitVec.allOnes_and

/-! ### Acknowledge frames (R64) -/

/-- The frame of a bit is the event of the one-bit transfer armed, the line carrying what both sides drive. -/
theorem frame_of_bit {dir : Dir} {drive : Bool} (m : Bool) {s : State} (hl : Live s) (hq : Quiet s.t)
    (hk : s.t.kind = some dir) (hc : s.t.cnt = 1) (hd : s.t.drive = drive) :
    frame [m] s =
      .next (serveEngine (transferred [m && drive] (completed dir (shiftIn s.t.sr (m && drive)) s.t) s)) := by
  rw [frame_one, clockServed_armed dir m s hl.1 (flagged_eq_false_of_quiet hq) hk, shift_eq_completed dir m hc, hd]
  rfl

/-- The transport after its one bit, complete and not yet serviced (R86). -/
def bitDone (dir : Dir) (v : Bool) (t : Transport) : Transport :=
  { completed dir (shiftIn t.sr v) t with doneN := .one, doneData := if v then 1 else 0 }

theorem completed_eq_bitDone (dir : Dir) (v : Bool) {t : Transport} (hn : t.n = .one) :
    completed dir (shiftIn t.sr v) t = bitDone dir v t := by
  rw [bitDone, completed, hn, sampledData_one_shiftIn]

/-- The frame of a bit armed in is that bit's event. -/
theorem frame_of_bitIn (m : Bool) {s : State} (hl : Live s) (hb : BitIn s.t) :
    frame [m] s = exec (.evDoneIn1 m) (transferred [m] (bitDone .inp m s.t) s) := by
  obtain ⟨hq, hk, hn, hc, hd⟩ := hb
  rw [frame_of_bit m hl hq hk hc hd, Bool.and_true, completed_eq_bitDone .inp m hn]
  exact serveEngine_in1 (s := transferred [m] (bitDone .inp m s.t) s) hl hq.1 rfl rfl rfl rfl

/-- The frame of a bit armed out is the event of the line value. -/
theorem frame_of_bitOut (m : Bool) {drive : Bool} {s : State} (hl : Live s) (hb : BitOut drive s.t) :
    frame [m] s =
      exec (.evDoneOut1 (m && drive)) (transferred [m && drive] (bitDone .out (m && drive) s.t) s) := by
  obtain ⟨hq, hk, hn, hc, hd⟩ := hb
  rw [frame_of_bit m hl hq hk hc hd, completed_eq_bitDone .out (m && drive) hn]
  exact serveEngine_out1 (s := transferred [m && drive] (bitDone .out (m && drive) s.t) s) hl hq.1 rfl rfl rfl rfl

/-- Settles O39: the event of the master's acknowledge bit. -/
theorem masterAcknowledgeFrames : Obligations.MasterAcknowledgeFrames := by
  intro s hl hx hb got o b
  have hread (m : Bool) := (readBytesAreDrawnOrTheChecksumRepeats (transferred [m] (bitDone .inp m s.t) s) hl).2 hx
  obtain ⟨hinside, hpast, -⟩ := hread false
  obtain ⟨-, -, hnack⟩ := hread true
  exact ⟨fun h => (frame_of_bitIn false hl hb).trans (hinside h), fun h => (frame_of_bitIn false hl hb).trans (hpast h),
    (frame_of_bitIn true hl hb).trans hnack⟩

theorem exec_ackOf (bit : Bool) (s : State) : exec (ackOf bit) s = frame [bit] s := by cases bit <;> rfl

/-- Settles O40: the event of the slave's acknowledge bit, by the state that waits for it. -/
theorem slaveAcknowledgeFrames : Obligations.SlaveAcknowledgeFrames := by
  intro s bit drive hl hb v sent o b
  have hframe := (exec_ackOf bit s).trans (frame_of_bitOut bit hl hb)
  obtain ⟨harmNext, -⟩ := halfStepsArmTheNextTransfer
  obtain ⟨hread, -⟩ := readBytesAreDrawnOrTheChecksumRepeats (transferred [v] (bitDone .out v s.t) s) hl
  refine ⟨fun hx => hframe.trans (harmNext _ v hl hx), fun hx => ?_,
    fun hx => hframe.trans (nackDoneResetsTheEndpoint _ v hl hx)⟩
  obtain ⟨hinside, hpast⟩ := hread hx v
  exact ⟨fun h => hframe.trans (hinside h), fun h => hframe.trans (hpast h)⟩

end Sys2Proof.Machine
end

section
/-! R30, R34, R39, R42, R129, R131, R132: what every operation but the host's own writes and power-on conserves, and
the one way in which busy is raised (R27, R107). -/

namespace Sys2Proof.Machine

open Sys2Proof.Claims

/-! ### What is conserved -/

/-- Memory stays canonical and is written in W alone; the shadow stays; arming, a fault and the refusal mark are not
taken back. -/
structure Conserves (s t : State) : Prop where
  canonical : s.mem.wf → t.mem.wf
  outsideW : ∀ a, ¬ inW s a → t.mem.read a = s.mem.read a
  shadow : t.shadow = s.shadow
  armed : s.h.armed = true → t.h.armed = true
  fault : ∀ f, s.fault = some f → t.fault = some f
  refusalMark : s.refusalMark = true → t.refusalMark = true

/-- What writes none of these fields conserves them. -/
theorem conserves_of_same {s t : State} (hm : t.mem = s.mem) (hsh : t.shadow = s.shadow)
    (ha : s.h.armed = true → t.h.armed = true) (hf : t.fault = s.fault)
    (hr : s.refusalMark = true → t.refusalMark = true) : Conserves s t :=
  ⟨fun h => hm ▸ h, fun _ _ => by rw [hm], hsh, ha, fun _ h => hf.trans h, hr⟩

theorem conserves_refl (s : State) : Conserves s s := conserves_of_same rfl rfl id rfl id

/-- Conserved over an operation that leaves W where it is, and then over another. -/
theorem Conserves.trans {s u t : State} (h : Conserves s u) (hp : u.p = s.p) (hh : u.h = s.h) (h' : Conserves u t) :
    Conserves s t where
  canonical hw := h'.canonical (h.canonical hw)
  outsideW a ha :=
    have hau : ¬ inW u a := by rwa [inW, hp, hh]
    (h'.outsideW a hau).trans (h.outsideW a ha)
  shadow := h'.shadow.trans h.shadow
  armed ha := h'.armed (h.armed ha)
  fault f hf := h'.fault f (h.fault f hf)
  refusalMark hr := h'.refusalMark (h.refusalMark hr)

theorem BusKeeps.conserves {s t : State} (h : BusKeeps s t) : Conserves s t :=
  conserves_of_same h.mem h.shadow (fun ha => h.h ▸ ha) h.fault (fun hr => h.refusalMark ▸ hr)

/-- An engine step stores in W alone, and none is taken after a fault. -/
theorem EngineKeeps.conserves {s t : State} (h : EngineKeeps s t) (hf : engineLive s = false → t = s) : Conserves s t where
  canonical := engineKeeps_wf h
  outsideW := engineKeeps_outside_W h
  shadow := h.shadow
  armed ha := h.h ▸ ha
  fault f hsf := by rw [hf (by simp [engineLive, hsf]), hsf]
  refusalMark hr := h.refusalMark ▸ hr

theorem engineStep_conserves (k : EvKind) (d : Byte) (s : State) : Conserves s (engineStep k d s) :=
  (engineStep_keeps k d s).conserves (engineStep_of_not_live k d s)

theorem serveEngine_conserves (s : State) : Conserves s (serveEngine s) :=
  (serveEngine_keeps s).conserves fun h => serveEngine_of_not_enabled s (by rw [engineEnabled, h]; rfl)

theorem reservedEvent_of_not_live (w : BitVec 12) {s : State} (h : engineLive s = false) : reservedEvent w s = s :=
  if_neg (by rw [h]; exact Bool.false_ne_true)

/-- A loose event is the engine's step on an event that is no byte in, or a reserved event. -/
theorem looseEvent_cases (w : BitVec 12) (s : State) :
    (∃ k d, k ≠ .in8 ∧ looseEvent w s = engineStep k d s) ∨ looseEvent w s = reservedEvent w s := by
  unfold looseEvent
  dsimp only
  split
  · exact .inl ⟨.start, _, by decide, rfl⟩
  · exact .inl ⟨.in1, _, by decide, rfl⟩
  · exact .inl ⟨.out1, _, by decide, rfl⟩
  · exact .inr rfl

theorem reservedEvent_conserves (w : BitVec 12) (s : State) : Conserves s (reservedEvent w s) :=
  (reservedEvent_keeps w s).conserves (reservedEvent_of_not_live w)

theorem frame_conserves {ms : List Bool} {s t : State} (h : frame ms s = .next t) : Conserves s t := by
  have hframe : Conserves s t ∧ t.p = s.p ∧ t.h = s.h :=
    frame_induction (P := fun u => Conserves s u ∧ u.p = s.p ∧ u.h = s.h)
      (fun _ _ _ ⟨hc, hp, hh⟩ hu =>
        have k := busClock_keeps hu
        ⟨hc.trans hp hh k.conserves, k.p.trans hp, k.h.trans hh⟩)
      (fun u ⟨hc, hp, hh⟩ =>
        have k := serveEngine_keeps u
        ⟨hc.trans hp hh (serveEngine_conserves u), k.p.trans hp, k.h.trans hh⟩)
      ms s t ⟨conserves_refl s, rfl, rfl⟩ h
  exact hframe.1

theorem registration_conserves (writable null : Bool) (len : Byte) (base : Addr) (s : State) :
    Conserves s (registration (if writable then setW else setR) null len base s) := by
  rcases registration_cases (if writable then setW else setR) null len base s with ⟨r, -, e⟩ | ⟨-, -, e⟩ <;> rw [e]
  · exact conserves_of_same rfl rfl id rfl fun _ => rfl
  · cases writable <;> exact conserves_of_same rfl rfl id rfl id

theorem hostRegister_conserves (writable : Bool) (buffer : Option Addr) (length : Nat) (s : State) :
    Conserves s (hostRegister writable buffer length s) := by
  rcases hostRegister_cases writable buffer length s with ⟨base, -, -, e⟩ | ⟨null, len, base, e⟩ <;> rw [e]
  · exact conserves_of_same rfl rfl id rfl fun _ => rfl
  · exact registration_conserves ..

theorem exec_conserves {i : Instr} {s t : State} (h : exec i s = .next t) : Conserves s t := by
  cases exec_move i h with
  | clock m h => exact (busClock_keeps h).conserves
  | start h => exact (busEdge_keeps h).conserves
  | stop h => exact (busEdge_keeps h).conserves
  | wire ms h => exact frame_conserves h
  | event k d h => exact h ▸ engineStep_conserves k d s
  | register writable null len base h => exact h ▸ registration_conserves ..
  | arm h => subst h; exact conserves_of_same rfl rfl (fun _ => rfl) rfl id
  | command _ h | nop h | query h | status h => subst h; exact conserves_of_same rfl rfl id rfl id

theorem raise_conserves (r : FaultReason) (w : BitVec 12) (s : State) : Conserves s (raise r w s) :=
  ⟨id, fun _ _ => rfl, rfl, id, fun f hf => raise_fault_some r w s f hf, id⟩

theorem rejected_conserves {err : DecodeError} {s t : State} (h : rejected err s = .next t) : Conserves s t := by
  cases err with
  | tooWide => cases h
  | reservedEvent w => cases h; exact reservedEvent_conserves w s
  | looseEvent w =>
    cases h
    rcases looseEvent_cases w s with ⟨k, d, -, e⟩ | e <;> rw [e]
    · exact engineStep_conserves k d s
    · exact reservedEvent_conserves w s
  | reservedCommand w => cases h; exact raise_conserves .badTcmd w s
  | looseCommand w =>
    cases h
    rcases looseCommand_cases w s with ⟨c, e⟩ | e <;> rw [e]
    · exact conserves_of_same rfl rfl id rfl id
    · exact raise_conserves .badTcmd w s
  | reservedOp | reservedField => cases h; exact conserves_of_same rfl rfl id rfl fun _ => rfl

/-- Any input that is not the host's own write or power-on conserves. -/
theorem runItem_conserves {it : Item} {s t : State} (hw : hostWrites [it] = false) (h : runItem it s = .next t) :
    Conserves s t := by
  cases it with
  | word f w =>
    rcases runWord_cases f w s with ⟨i, -, e⟩ | ⟨err, -, e⟩ <;> rw [runItem, e] at h
    · exact exec_conserves h
    · exact rejected_conserves h
  | load a =>
    rcases hostLoad_cases a s with ⟨-, e⟩ | ⟨-, e⟩ <;> rw [runItem, e] at h <;> cases h
    exact conserves_of_same rfl rfl id rfl id
  | register writable buffer length => cases h; exact hostRegister_conserves ..
  | serve => cases h; exact serveEngine_conserves s
  | samples before rest => cases h; exact conserves_of_same rfl rfl id rfl id
  | store | tick | powerOn => cases hw

/-- Only the next input counts. -/
theorem hostWrites_cons (it : Item) (rest : List Item) : hostWrites (it :: rest) = hostWrites [it] := by
  cases it <;> rfl

/-- A step with no host write and no power-on next conserves. -/
theorem step_conserves {s t : State} (h : step s = .next t) (hw : hostWrites s.script = false) : Conserves s t := by
  have hserve : Conserves s (serveEngine (beginStep s)) :=
    (conserves_of_same rfl rfl id rfl id : Conserves s (beginStep s)).trans rfl rfl (serveEngine_conserves _)
  rcases step_cases s with ⟨-, e⟩ | ⟨_, _, -, -, -, e⟩ | ⟨it, rest, hs, -, e⟩ <;> rw [e] at h
  · cases h; exact hserve
  · cases h; exact hserve
  · have hit : hostWrites [it] = false := by rwa [hs, hostWrites_cons] at hw
    exact (conserves_of_same rfl rfl id rfl id : Conserves s (takeItem rest s)).trans rfl rfl (runItem_conserves hit h)

/-- Settles O54: the step conserves. -/
theorem noStepStoresOutsideTheWritableWindow : Obligations.NoStepStoresOutsideTheWritableWindow :=
  fun _ _ h hw => (step_conserves h hw).outsideW

/-! ### The host's own writes (R54, R118, R128, R147) -/

/-- A step either conserves or is one of the host's own writes or a power-on. -/
theorem step_conserves_or_writes {s t : State} (h : step s = .next t) :
    Conserves s t ∨
    (∃ a v rest, s.script = .store a v :: rest ∧ t = { takeItem rest s with mem := s.mem.write a.toNat v }) ∨
    (∃ rest, s.script = .tick :: rest ∧ t = commitTick (takeItem rest s)) ∨
    ∃ cells sh rest, s.script = .powerOn cells sh :: rest ∧
      t = State.powerOn s.p s.e.addr (Memory.ofCells s.p.addrWidth cells) sh rest := by
  cases hw : hostWrites s.script with
  | false => exact .inl (step_conserves h hw)
  | true =>
    refine .inr ?_
    cases hs : s.script with
    | nil => rw [hs] at hw; cases hw
    | cons it rest =>
      cases it with
      | store a v =>
        rw [step_of_item hs rfl, runItem] at h
        rcases hostStore_cases a v (takeItem rest s) with ⟨-, e⟩ | ⟨-, -, e⟩ | ⟨-, -, e⟩ <;> rw [e] at h <;> cases h
        exact .inl ⟨a, v, rest, rfl, rfl⟩
      | tick =>
        rw [step_of_item hs rfl] at h
        cases h
        exact .inr (.inl ⟨rest, rfl, rfl⟩)
      | powerOn cells sh =>
        rw [step_of_item hs rfl] at h
        cases h
        exact .inr (.inr ⟨cells, sh, rest, rfl, rfl⟩)
      | _ => rw [hs] at hw; cases hw

/-- Settles O52: every write keeps the canonical form, and power-on builds it. -/
theorem everyStepKeepsMemoryCanonical : Obligations.EveryStepKeepsMemoryCanonical := by
  intro s t hw h
  rcases step_conserves_or_writes h with hc | ⟨a, v, rest, -, rfl⟩ | ⟨rest, -, rfl⟩ | ⟨cells, sh, rest, -, rfl⟩
  · exact hc.canonical hw
  · exact Memory.write_wf _ _ _ hw
  · rcases commitTick_cases (takeItem rest s) with ⟨-, e⟩ | ⟨-, e⟩ <;> rw [e]
    · exact hw
    · exact Memory.write_wf _ _ _ hw
  · exact Memory.ofCells_wf _ _

/-- Settles O55: of the host's own writes only the consumer's commit writes the shadow, and it has seen busy 0. -/
theorem onlyTheConsumerWritesTheShadow : Obligations.OnlyTheConsumerWritesTheShadow := by
  intro s t h hp
  rcases step_conserves_or_writes h with hc | ⟨a, v, rest, -, rfl⟩ | ⟨rest, hs, rfl⟩ | ⟨cells, sh, rest, hs, -⟩
  · exact .inl hc.shadow
  · exact .inl rfl
  · rcases commitTick_cases (takeItem rest s) with ⟨-, e⟩ | ⟨hcommit, e⟩ <;> rw [e]
    · exact .inl rfl
    · have hbusy : (queryBusy (takeItem rest s)).e.busy = false := by
        simp only [commits, Bool.and_eq_true, Bool.not_eq_true'] at hcommit
        obtain ⟨⟨hbusy, -⟩, -⟩ := hcommit
        exact hbusy
      exact .inr ⟨⟨rest, hs⟩, hbusy, rfl⟩
  · rw [hs] at hp; cases hp

/-- Settles O56: the host's own writes write none of the three. -/
theorem armingFaultAndRefusalMarkAreSticky : Obligations.ArmingFaultAndRefusalMarkAreSticky := by
  intro s t h hp
  rcases step_conserves_or_writes h with hc | ⟨a, v, rest, -, rfl⟩ | ⟨rest, -, rfl⟩ | ⟨cells, sh, rest, hs, -⟩
  · exact ⟨hc.armed, hc.fault, hc.refusalMark⟩
  · exact ⟨id, fun _ => id, id⟩
  · rcases commitTick_cases (takeItem rest s) with ⟨-, e⟩ | ⟨-, e⟩ <;> rw [e] <;> exact ⟨id, fun _ => id, id⟩
  · rw [hs] at hp; cases hp

/-! ### What raises busy (R27, R107) -/

/-- The engine, live in ReceiveByte with the index inside the writable region, has stored the byte `d` at the index and
presented ACT_RX. -/
structure StoredByte (s t : State) (d : Byte) : Prop where
  live : Live s
  state : s.e.state = .receiveByte
  index : s.e.index.toNat < s.h.wlen.toNat
  act : 0b01#2 ∈ t.out.acts
  mem : t.mem = s.mem.write (waddr s) d

/-- Busy was 0 in `s` and is 1 in `t`. -/
def Raised (s t : State) : Prop := s.e.busy = false ∧ t.e.busy = true

theorem not_raised_of_same {s t : State} (he : t.e = s.e) : ¬ Raised s t := by
  rintro ⟨h0, h1⟩
  rw [he, h0] at h1; cases h1

/-- Of the engine's steps only the event of a byte in raises busy. -/
theorem engineStep_raises {k : EvKind} {d : Byte} {s : State} (h : Raised s (engineStep k d s)) :
    k = .in8 ∧ StoredByte s (engineStep k d s) d := by
  obtain ⟨hk, hl, hx, hi, hm, ha⟩ := (engineStep_does k d s).busy h.1 h.2
  exact ⟨hk, (live_iff s).mp hl, hx, BitVec.lt_def.mp hi, ha, hm⟩

theorem doneEvent_eq_in8 {dir : Dir} {n : XferLen} (h : doneEvent dir n = .in8) : dir = .inp ∧ n = .eight := by
  revert h
  cases dir <;> cases n <;> simp [doneEvent]

/-- Serving the engine raises busy only with the DONE of a byte in pending. -/
theorem serveEngine_raises {s : State} (h : Raised s (serveEngine s)) :
    s.t.startF = false ∧ s.t.doneF = true ∧ s.t.doneKind = .inp ∧ s.t.doneN = .eight ∧
      StoredByte s (serveEngine s) s.t.doneData := by
  cases he : engineEnabled s with
  | false => exact absurd h (not_raised_of_same (congrArg State.e (serveEngine_of_not_enabled s he)))
  | true =>
    obtain ⟨hl, hs | ⟨hs, hd⟩⟩ := Safety.live_of_engineEnabled he
    · rw [Host.Outcome.next.inj (serveEngine_start hl hs)] at h
      obtain ⟨hk, -⟩ := engineStep_raises h
      cases hk
    · rw [serveEngine_done hl hs hd] at h ⊢
      obtain ⟨hk, hstored⟩ := engineStep_raises h
      obtain ⟨hdir, hn⟩ := doneEvent_eq_in8 hk
      exact ⟨hs, hd, hdir, hn, hstored⟩

theorem registration_e (f : Addr → Byte → HostPort → HostPort) (null : Bool) (len : Byte) (base : Addr) (s : State) :
    (registration f null len base s).e = s.e := by
  rcases registration_cases f null len base s with ⟨r, -, e⟩ | ⟨-, -, e⟩ <;> rw [e]
  rfl

theorem hostRegister_e (writable : Bool) (buffer : Option Addr) (length : Nat) (s : State) :
    (hostRegister writable buffer length s).e = s.e := by
  rcases hostRegister_cases writable buffer length s with ⟨base, -, -, e⟩ | ⟨null, len, base, e⟩ <;> rw [e]
  · rfl
  · exact registration_e ..

/-- An instruction that raises busy is the event of a byte in, or a frame. -/
theorem exec_raises {i : Instr} {s t : State} (he : exec i s = .next t) (h : Raised s t) :
    (∃ d, i = .evDoneIn8 d ∧ StoredByte s t d) ∨ ((lineBits i).length ≤ 8 ∧ frame (lineBits i) s = .next t) := by
  by_cases hbus : i.format.isBus = true
  · rcases busWord_cases hbus with ⟨m, rfl⟩ | rfl | rfl | ⟨hlen, hframe⟩
    · rw [exec_clockOf] at he
      exact absurd h (not_raised_of_same (busClock_keeps he).e)
    · exact absurd h (not_raised_of_same (busEdge_keeps (f := startCondition) he).e)
    · exact absurd h (not_raised_of_same (busEdge_keeps (f := stopCondition) he).e)
    · exact .inr ⟨hlen, (hframe s).symm.trans he⟩
  · by_cases hev : isEvent i
    · obtain ⟨k, d, rfl, hexec, -⟩ := event_cases hev
      rw [hexec] at he
      cases he
      obtain ⟨rfl, hstored⟩ := engineStep_raises h
      exact .inl ⟨d, rfl, hstored⟩
    · exfalso
      cases i with
      | regw | regr => cases he; exact not_raised_of_same (registration_e ..) h
      | qbusy =>
        cases he
        exact Bool.false_ne_true ((busyAnswer_of_not_busy h.1).symm.trans h.2)
      | tDisarm | tIn1 | tIn8 | tOut1 | tOut8 | nop | arm | status => cases he; exact not_raised_of_same rfl h
      | evStart | evDoneIn1 | evDoneIn8 | evDoneOut1 | evDoneOut8 => exact hev rfl
      | _ => exact hbus rfl

theorem reservedEvent_e (w : BitVec 12) (s : State) : (reservedEvent w s).e = s.e := by
  unfold reservedEvent
  split <;> rfl

theorem rejected_not_raises {err : DecodeError} {s t : State} (he : rejected err s = .next t) : ¬ Raised s t := by
  cases err with
  | tooWide => cases he
  | reservedEvent w => cases he; exact not_raised_of_same (reservedEvent_e w s)
  | looseEvent w =>
    cases he
    rcases looseEvent_cases w s with ⟨k, d, hk, e⟩ | e <;> rw [e]
    · exact fun h => hk (engineStep_raises h).1
    · exact not_raised_of_same (reservedEvent_e w s)
  | looseCommand w =>
    cases he
    rcases looseCommand_cases w s with ⟨c, e⟩ | e <;> rw [e] <;> exact not_raised_of_same rfl
  | reservedCommand | reservedOp | reservedField => cases he; exact not_raised_of_same rfl

theorem commitTick_not_raises (s : State) : ¬ Raised s (commitTick s) := by
  rintro ⟨h0, h1⟩
  have hbusy : (commitTick s).e.busy = busyAnswer s := by
    rcases commitTick_cases s with ⟨-, e⟩ | ⟨-, e⟩ <;> rw [e] <;> rfl
  rw [hbusy, busyAnswer_of_not_busy h0] at h1
  cases h1

/-- A frame that raises busy completes the byte armed in, which is read off the line values. -/
theorem frame_raises {ms : List Bool} {s t : State} (hlen : ms.length ≤ 8) (hf : frame ms s = .next t)
    (hout : s.out.line = []) (h : Raised s t) :
    Quiet s.t ∧ s.t.kind = some .inp ∧ s.t.n = .eight ∧
      StoredByte s t (shiftedIn s.t.sr (t.out.line.take s.t.cnt.toNat)) := by
  obtain ⟨hl, hq, hk, hn, hx, hi, ha, line, hline, hm⟩ := frame_raises_busy ms s t hlen hf h.1 h.2
  rw [hout, List.nil_append] at hline
  rw [← hline] at hm
  exact ⟨Safety.quiet_of_not_flagged hq, hk, hn, (live_iff s).mp hl, hx, BitVec.lt_def.mp hi, ha, hm⟩

/-- An item that raises busy does so with the byte it receives. -/
theorem runItem_raises {it : Item} {rest : List Item} {s t : State} (hs : s.script = it :: rest)
    (hr : runItem it (takeItem rest s) = .next t) (h : Raised s t) :
    ∃ d, Received s t d ∧ StoredByte (takeItem rest s) t d := by
  cases it with
  | word f w =>
    rcases runWord_cases f w (takeItem rest s) with ⟨i, hi, e⟩ | ⟨err, -, e⟩ <;> rw [runItem, e] at hr
    · rcases exec_raises hr h with ⟨d, rfl, hstored⟩ | ⟨hlen, hframe⟩
      · obtain ⟨rfl, -⟩ := encodeOfDecodeIsTheWord f w _ hi
        exact ⟨d, .inl ⟨w, rest, hs, hi⟩, hstored⟩
      · obtain ⟨hq, hk, hn, hstored⟩ := frame_raises hlen hframe rfl h
        exact ⟨_, .inr (.inr ⟨hq, hk, hn, rfl⟩), hstored⟩
    · exact absurd (show Raised (takeItem rest s) t from h) (rejected_not_raises hr)
  | serve =>
    cases hr
    obtain ⟨hst, hd, hk, hn, hstored⟩ := serveEngine_raises (s := takeItem rest s) h
    exact ⟨_, .inr (.inl ⟨hst, hd, hk, hn, rfl⟩), hstored⟩
  | store a v =>
    rcases hostStore_cases a v (takeItem rest s) with ⟨-, e⟩ | ⟨-, -, e⟩ | ⟨-, -, e⟩ <;> rw [runItem, e] at hr <;>
      cases hr
    exact absurd h (not_raised_of_same rfl)
  | load a =>
    rcases hostLoad_cases a (takeItem rest s) with ⟨-, e⟩ | ⟨-, e⟩ <;> rw [runItem, e] at hr <;> cases hr
    exact absurd h (not_raised_of_same rfl)
  | tick => cases hr; exact absurd h (commitTick_not_raises (takeItem rest s))
  | register writable buffer length => cases hr; exact absurd h (not_raised_of_same (hostRegister_e ..))
  | samples => cases hr; exact absurd h (not_raised_of_same rfl)
  | powerOn => cases hr; cases h.2

/-- Settles O57: the byte stored is the pending one, or that of the item. -/
theorem busyIsRaisedOnlyByAStoredByte : Obligations.BusyIsRaisedOnlyByAStoredByte := by
  intro s t hstep h0 h1
  have hstored : ∃ d, Received s t d ∧ StoredByte s t d := by
    have hserve (ht : t = serveEngine (beginStep s)) : ∃ d, Received s t d ∧ StoredByte s t d := by
      subst ht
      obtain ⟨hst, hd, hk, hn, hl, hx, hi, ha, hm⟩ := serveEngine_raises (s := beginStep s) ⟨h0, h1⟩
      exact ⟨_, .inr (.inl ⟨hst, hd, hk, hn, rfl⟩), hl, hx, hi, ha, hm⟩
    rcases step_cases s with ⟨-, e⟩ | ⟨_, _, -, -, -, e⟩ | ⟨it, rest, hs, -, e⟩ <;> rw [e] at hstep
    · exact hserve (Host.Outcome.next.inj hstep).symm
    · exact hserve (Host.Outcome.next.inj hstep).symm
    · obtain ⟨d, hrec, hl, hx, hi, ha, hm⟩ := runItem_raises hs hstep ⟨h0, h1⟩
      exact ⟨d, hrec, hl, hx, hi, ha, hm⟩
  obtain ⟨d, hrec, hl, hx, hi, ha, hm⟩ := hstored
  refine ⟨hl, hx, hi, ha, d, hrec, fun hw => ?_, fun a hne => ?_⟩ <;> rw [hm]
  · exact Memory.read_write_same _ _ _ hw
  · exact Memory.read_write_ne _ _ _ _ hne

end Sys2Proof.Machine
end

section
/-! R47, R67, R107, R109, R114: whole write and read phases, byte after byte. -/

namespace Sys2Proof.Machine

open Sys2Proof.Claims

/-! ### A write phase (R47, R107) -/

/-- The block has taken the data byte `v` in and had its ACK clocked out. -/
structure TookByte (v : Byte) (s u : State) : Prop where
  p : u.p = s.p
  h : u.h = s.h
  fault : u.fault = s.fault
  e : u.e = afterStore s.e
  mem : u.mem = s.mem.write (waddr s) v

/-- A byte inside the region takes two events: the byte in, and the ACK out. -/
theorem execAll_dataByte (v : Byte) {s : State} (hl : Live s) (hx : s.e.state = .receiveByte)
    (hi : s.e.index.toNat < s.h.wlen.toNat) :
    ∃ u, TookByte v s u ∧ ∀ is, execAll (.evDoneIn8 v :: .evDoneOut1 false :: is) s = execAll is u := by
  obtain ⟨hstore, -⟩ := dataByteIsStoredOrRefused s v hl hx
  obtain ⟨harmNext, -⟩ := halfStepsArmTheNextTransfer
  refine ⟨_, ?_, fun is => (execAll_cons_of_next (hstore hi)).trans
    (execAll_cons_of_next (harmNext _ false hl (.inr rfl)))⟩
  exact ⟨rfl, rfl, rfl, rfl, rfl⟩

theorem index_succ_toNat {i n : Byte} (h : i.toNat < n.toNat) : (i + 1).toNat = i.toNat + 1 := by bv_omega

/-- Settles O58: by induction on the bytes; each is at an address below those of the bytes after it. -/
theorem writePhaseLandsInOrder : Obligations.WritePhaseLandsInOrder := by
  intro s vs
  induction vs generalizing s with
  | nil =>
    intro _ hx _ _ _
    exact ⟨s, rfl, hx, rfl, (Bool.or_false _).symm, fun k v h => by simp at h, fun _ _ => rfl⟩
  | cons v vs ih =>
    intro hl hx hw hfits hlen
    rw [List.length_cons] at hlen
    have hi : s.e.index.toNat < s.h.wlen.toNat := by omega
    have haddr : waddr s = s.h.wbase.toNat + s.e.index.toNat := regionAddr_eq s.p _ _ _ hfits hi
    obtain ⟨u, ⟨hp, hh, hf, he, hm⟩, hrun⟩ := execAll_dataByte v hl hx hi
    have hindex : u.e.index.toNat = s.e.index.toNat + 1 := by rw [he]; exact index_succ_toNat hi
    obtain ⟨t, ht, htx, hti, htb, htv, hto⟩ := ih u ⟨by rw [hh]; exact hl.1, hf.trans hl.2⟩ (by rw [he]; rfl)
      (by rw [hm]; exact Memory.write_wf _ _ _ hw) (by rw [hp, hh]; exact hfits) (by rw [hh, hindex]; omega)
    rw [hh, hindex] at htv hto
    rw [hm, haddr] at hto
    refine ⟨t, (hrun _).trans ht, htx, by rw [hti, hindex, List.length_cons]; omega, ?_, fun k x hk => ?_, fun a ha => ?_⟩
    · rw [htb, he]; simp [afterStore]
    · cases k with
      | zero =>
        obtain rfl : v = x := by simpa using hk
        rw [Nat.add_zero, hto _ (by omega)]
        exact Memory.read_write_same _ _ _ hw
      | succ k =>
        rw [← htv k x (by simpa using hk)]
        congr 1
        omega
    · rw [List.length_cons] at ha
      rw [hto a (by omega), Memory.read_write_ne _ _ _ _ (by omega)]

/-! ### A read phase (R47, R109, R114) -/

/-- In `t` the engine has drawn the bytes of a read from `s` that are among its first `n`. -/
structure DrewBytes (s : State) (n : Nat) (t : State) : Prop where
  live : Live t
  p : t.p = s.p
  h : t.h = s.h
  mem : t.mem = s.mem
  index : t.e.index.toNat = s.e.index.toNat + min n (s.h.rlen.toNat - s.e.index.toNat)
  checksum : t.e.checksum = checksumAfter s n

/-- The engine has armed byte number `n` of the read from `s`, and waits for it to go out. -/
structure SendsByte (s : State) (n : Nat) (t : State) : Prop where
  drew : DrewBytes s (n + 1) t
  state : t.e.state = .ackSent
  kind : t.t.kind = some .out
  len : t.t.n = .eight
  cnt : t.t.cnt = 8
  out : t.t.out = sentByte s n

/-- Byte number `n` lies in the region: it is one more byte drawn. -/
theorem drawn_succ_inside {s : State} {n : Nat} (h : s.e.index.toNat + n < s.h.rlen.toNat) :
    drawn s (n + 1) = drawn s n ++ [s.mem.read (regionAddr s.p s.h.rbase (s.e.index.toNat + n))] := by
  have h1 : min (n + 1) (s.h.rlen.toNat - s.e.index.toNat) = n + 1 := by omega
  have h0 : min n (s.h.rlen.toNat - s.e.index.toNat) = n := by omega
  rw [drawn, drawn, h1, h0, List.range_succ, List.map_append]
  rfl

/-- Past the region no byte is drawn. -/
theorem drawn_succ_past {s : State} {n : Nat} (h : s.h.rlen.toNat ≤ s.e.index.toNat + n) :
    drawn s (n + 1) = drawn s n := by
  have hmin : min (n + 1) (s.h.rlen.toNat - s.e.index.toNat) = min n (s.h.rlen.toNat - s.e.index.toNat) := by omega
  rw [drawn, drawn, hmin]

theorem checksumAfter_succ_inside {s : State} {n : Nat} (h : s.e.index.toNat + n < s.h.rlen.toNat) :
    checksumAfter s (n + 1) = checksumAfter s n ^^^ sentByte s n := by
  rw [checksumAfter, drawn_succ_inside h, List.foldl_append, sentByte, if_pos h]
  rfl

theorem checksumAfter_succ_past {s : State} {n : Nat} (h : s.h.rlen.toNat ≤ s.e.index.toNat + n) :
    checksumAfter s (n + 1) = checksumAfter s n := by
  rw [checksumAfter, drawn_succ_past h, checksumAfter]

/-- After `n` bytes, R109 arms byte number `n`: the next region byte, or the checksum. -/
theorem transmitByte_sends {s t : State} {n : Nat} (h : DrewBytes s n t) : SendsByte s n (clearDone (transmitByte t)) := by
  obtain ⟨hl, hp, hh, hm, hi, hc⟩ := h
  by_cases hin : s.e.index.toNat + n < s.h.rlen.toNat
  · have hindex : t.e.index.toNat = s.e.index.toNat + n := by omega
    have hti : t.e.index.toNat < t.h.rlen.toNat := by rw [hindex, hh]; exact hin
    have hbyte : t.mem.read (raddr t) = sentByte s n := by
      rw [sentByte, if_pos hin, hm, raddr, hp, hh, hindex]
    rw [clearDone_transmitByte_inside hti, hbyte]
    refine ⟨⟨hl, hp, hh, hm, ?_, ?_⟩, rfl, rfl, rfl, rfl, rfl⟩
    · exact (index_succ_toNat hti).trans (by omega)
    · rw [checksumAfter_succ_inside hin, ← hc]; rfl
  · have hpast : s.h.rlen.toNat ≤ s.e.index.toNat + n := Nat.le_of_not_lt hin
    have hti : t.h.rlen.toNat ≤ t.e.index.toNat := by rw [hh]; omega
    have hbyte : t.e.checksum = sentByte s n := by rw [sentByte, if_neg hin, hc]
    rw [clearDone_transmitByte_past hti, hbyte]
    refine ⟨⟨hl, hp, hh, hm, ?_, ?_⟩, rfl, rfl, rfl, rfl, rfl⟩
    · exact hi.trans (by omega)
    · rw [checksumAfter_succ_past hpast]; exact hc

/-- What a read has drawn does not depend on the transport, the output, or the endpoint's other fields. -/
theorem DrewBytes.of_same {s t u : State} {n : Nat} (h : DrewBytes s n t) (hf : u.fault = t.fault) (hp : u.p = t.p)
    (hh : u.h = t.h) (hm : u.mem = t.mem) (hi : u.e.index = t.e.index) (hc : u.e.checksum = t.e.checksum) :
    DrewBytes s n u :=
  ⟨⟨by rw [hh]; exact h.live.1, hf.trans h.live.2⟩, hp.trans h.p, hh.trans h.h, hm.trans h.mem, by rw [hi]; exact h.index,
    hc.trans h.checksum⟩

/-- A byte that the master acknowledges takes two events, the byte out and its ACK in, and the next one is armed. -/
theorem execAll_acknowledgedByte {s t : State} {n : Nat} (h : SendsByte s n t) :
    ∃ u, SendsByte s (n + 1) u ∧ ∀ is, execAll (.evDoneOut8 0 :: .evDoneIn1 false :: is) t = execAll is u := by
  obtain ⟨-, harmAck⟩ := halfStepsArmTheNextTransfer
  have hout := harmAck t 0 h.drew.live h.state
  generalize hv : ({ t with t := awaitsBit t.t, out := engineOut t.out [0x100#12] 0b00#2 } : State) = v at hout
  have hdrew : DrewBytes s (n + 1) (withoutIndex v) := by
    subst hv
    exact h.drew.of_same rfl rfl rfl rfl rfl rfl
  have hvl : Live v := by subst hv; exact h.drew.live
  have hvx : v.e.state = .ackSent := by subst hv; exact h.state
  have hack : exec (.evDoneIn1 false) v = .next (clearDone (transmitByte (withoutIndex v))) :=
    next_of_doneRow .masterAckIn hvl hvx (bitByte false) (clearDone_ackSent_ack v)
  exact ⟨_, transmitByte_sends hdrew, fun is => (execAll_cons_of_next hout).trans (execAll_cons_of_next hack)⟩

theorem execAll_acknowledged (n : Nat) : ∀ (s t : State) (m : Nat), SendsByte s m t →
    ∃ u, execAll (acknowledged n) t = .next u ∧ SendsByte s (m + n) u := by
  induction n with
  | zero => intro s t m h; exact ⟨t, rfl, h⟩
  | succ n ih =>
    intro s t m h
    obtain ⟨u, hu, hrun⟩ := execAll_acknowledgedByte h
    obtain ⟨w, hw, hsends⟩ := ih s u (m + 1) hu
    exact ⟨w, (hrun _).trans hw, by rwa [Nat.add_assoc, Nat.add_comm 1 n] at hsends⟩

/-- Settles O59: the first byte after the address ACK, and then one more for each ACK of the master. -/
theorem readPhaseSendsTheRegionThenTheChecksum : Obligations.ReadPhaseSendsTheRegionThenTheChecksum := by
  intro s x n hl hx
  have hdrew : DrewBytes s 0 s := ⟨hl, rfl, rfl, rfl, by simp, by simp [checksumAfter, drawn]⟩
  have hfirst : exec (.evDoneOut1 x) s = .next (clearDone (transmitByte s)) :=
    next_of_doneRow .ackOutBeforeRead hl hx (bitByte x) rfl
  obtain ⟨t, ht, hsends⟩ := execAll_acknowledged n s _ 0 (transmitByte_sends hdrew)
  rw [Nat.zero_add] at hsends
  obtain ⟨⟨-, -, -, hm, hi, hc⟩, htx, hk, hn, hcnt, hout⟩ := hsends
  exact ⟨t, (execAll_cons_of_next hfirst).trans ht, htx, hk, hn, hcnt, hout, hc, hi, hm⟩

end Sys2Proof.Machine
end
